-- ==== Sys2Proof/Word.lean ====
section
/-! DEFINITION. The word types of z85_codec (00_scope.md R8, R9; 30_encoding.md R61, R62).
Every value of the block is unsigned (R9). -/

namespace Sys2Proof

/-- A byte or a character: 8 bits (R8). -/
abbrev Byte := BitVec 8

/-- The group word `w[31:0]`: 32 bits, unsigned (R8, R60). -/
abbrev Word := BitVec 32

/-- A digit on a port: 7 bits (R8). Its value is in [0, 84] wherever the encoder makes one (R75). -/
abbrev Digit := BitVec 7

/-- The digit vector `[d0, d1, d2, d3, d4]` between the arithmetic and a ROM: 35 bits, d0 in bits [34:28] (R62). -/
abbrev DigitVector := BitVec 35

/-- The character group `c[39:0]`: c0 in bits [39:32], c4 in bits [7:0] (R61). -/
abbrev CharGroup := BitVec 40

/-- The operation select of a request: 2 bits (R54, R55). -/
abbrev Op := BitVec 2

end Sys2Proof
end

