-- ==== Sys2Proof/Config.lean ====
section
/-! DEFINITION. The build parameters of 00_scope.md R7.
R7 says that a model takes each of them as an argument. `step` takes the state alone, so an instance's parameters stand
in `State` (its field `cfg`, notes/assumptions/1.md), no step changes them, and a statement about every state holds for
every choice of them. `LATENCY` has no field: a model has no time (70_reset_and_hazards.md R122), and the passing turns
of `State.turns` stand for it (notes/assumptions/4.md). -/

namespace Sys2Proof

/-- `DECODE_POLICY` (R7): what DEC does with a character outside the alphabet (R87, R88). -/
inductive DecodePolicy where
  /-- DEC answers INVALID_CHARACTER (R87). The default (R7). -/
  | strict
  /-- The character counts as digit 0 (R88). -/
  | lenient
  deriving DecidableEq, Repr

/-- The build parameters of one instance (R7). -/
structure Config where
  /-- `DECODE_POLICY`. -/
  decodePolicy : DecodePolicy
  /-- `LEN_W`: the width in bits of a request's length field. -/
  lenW : Nat
  deriving DecidableEq, Repr

/-- `MAX_LEN = 2^LEN_W - 1`: the most payload bytes a request carries (R7). -/
def Config.maxLen (cfg : Config) : Nat := 2 ^ cfg.lenW - 1

/-- The parameters that `State.reset` and the table's words (`decodeTableWord`) are read with. `STRICT` is R7's default.
DESIGN CHOICE: `LEN_W` is open (R7), and 8 is the width that the spec's own programs use (95_test_vectors.md section 3);
see notes/assumptions/2.md. -/
def Config.asBuilt : Config := ⟨.strict, 8⟩

end Sys2Proof
end

