-- ==== Sys2Proof/Syntax.lean ====
section
/-! DEFINITION. Requests and instructions.
The block fetches no instructions (10_state.md R18): an instruction of this model is one operation with the payload its
request carries, and there is one constructor per row of spec/opcode_table.json, that is per value of `op` (R55). -/

namespace Sys2Proof

/-- A request, with exactly the three fields of 30_encoding.md R54. Which records are requests of an instance is
`Request.wf`: the widths depend on `LEN_W`. -/
structure Request where
  /-- `op[1:0]`: operation select. -/
  op : Op
  /-- `len[LEN_W-1:0]`: the number of payload bytes. -/
  len : Nat
  /-- `p[0..len-1]`: the payload, element 0 first. -/
  p : List Byte
  deriving DecidableEq, Repr

/-- The operations (R55), each with its payload. `len` is the payload's length (R54). -/
inductive Instr where
  /-- `op` = 0b01, `ENC`: bytes to Z85 text (R77). -/
  | enc (p : List Byte)
  /-- `op` = 0b10, `DEC`: Z85 text to bytes (R85). -/
  | dec (p : List Byte)
  /-- `op` = 0b00, reserved: answered with ILLEGAL_OP (R98). -/
  | reservedOp00 (p : List Byte)
  /-- `op` = 0b11, reserved: answered with ILLEGAL_OP (R98). -/
  | reservedOp11 (p : List Byte)
  deriving DecidableEq, Repr

/-- The payload an operation carries. -/
def Instr.payload : Instr → List Byte
  | .enc p => p
  | .dec p => p
  | .reservedOp00 p => p
  | .reservedOp11 p => p

end Sys2Proof
end

