-- ==== Sys2Proof/WellFormed.lean ====
section
/-! DEFINITION. What the widths of 00_scope.md R7 and 30_encoding.md R54 allow. Each check is a decidable proposition. -/

namespace Sys2Proof

/-- `LEN_W` is at least 3, so that one character group fits (R7). -/
abbrev Config.wf (cfg : Config) : Prop := 3 ≤ cfg.lenW

/-- `len` is a number below 2^`LEN_W`, and `p` is a sequence of exactly `len` bytes (R54). -/
abbrev Request.wf (cfg : Config) (q : Request) : Prop := q.len < 2 ^ cfg.lenW ∧ q.p.length = q.len

/-- A payload of at most `MAX_LEN` bytes: a longer one cannot be expressed (R54). Every byte value is legal (R65). -/
abbrev Instr.wf (cfg : Config) (i : Instr) : Prop := i.payload.length < 2 ^ cfg.lenW

end Sys2Proof
end

