-- ==== Sys2Proof/Decode.lean ====
section
/-! DEFINITION. Decoding a request into its operation, and the encoder.
A request has two written forms: its fields (`Request`, 30_encoding.md R54), and its message, that is the header
`(op, len)` as one number of `LEN_W` + 2 bits with `op` in the high bits, followed by the payload bytes, element 0 first
(the form that 95_test_vectors.md section 3 uses for its programs). The opcode table numbers a request's bits from the
`op` field upward: `tableRequest` reads that form. -/

namespace Sys2Proof

/-- Why a form is no request of the instance. R54 gives these forms no meaning: they cannot be expressed on the
interface (93_implementation_defined.md I10). Safe: the model stops there and the hardware never sees one. -/
inductive DecodeError where
  /-- The header has a bit above its `LEN_W` + 2 bits (raised by `decodeMessage`). -/
  | headerTooWide
  /-- `len` does not fit its `LEN_W` bits (raised by `decode`). -/
  | lenTooWide
  /-- The payload does not have exactly `len` bytes (raised by `decode`). -/
  | payloadLengthMismatch
  deriving DecidableEq, Repr

/-- The operation that a value of `op` selects (R55, R65). -/
def instrOfOp (op : Op) (p : List Byte) : Instr :=
  if op = 0b01#2 then .enc p
  else if op = 0b10#2 then .dec p
  else if op = 0b00#2 then .reservedOp00 p
  else .reservedOp11 p

/-- The value of `op` that selects an operation (R55). -/
def Instr.opCode : Instr → Op
  | .enc _ => 0b01#2
  | .dec _ => 0b10#2
  | .reservedOp00 _ => 0b00#2
  | .reservedOp11 _ => 0b11#2

/-- Decoding a request: total, and a record that R54 does not allow is rejected by name. No mode bit and no policy
changes it (R66). -/
def decode (cfg : Config) (q : Request) : Except DecodeError Instr :=
  if 2 ^ cfg.lenW ≤ q.len then .error .lenTooWide
  else if q.p.length ≠ q.len then .error .payloadLengthMismatch
  else .ok (instrOfOp q.op q.p)

/-- The request that carries an operation (R54, R55). -/
def encode (i : Instr) : Request := ⟨i.opCode, i.payload.length, i.payload⟩

/-- The header `(op[1:0], len[LEN_W-1:0])` as a number, `op` in its high bits (95_test_vectors.md section 3). -/
def Request.header (cfg : Config) (q : Request) : Nat := q.op.toNat * 2 ^ cfg.lenW + q.len

/-- Decoding a message: a header number and payload bytes, whatever they are. -/
def decodeMessage (cfg : Config) (header : Nat) (payload : List Byte) : Except DecodeError Instr :=
  if 2 ^ (cfg.lenW + 2) ≤ header then .error .headerTooWide
  else decode cfg ⟨BitVec.ofNat 2 (header / 2 ^ cfg.lenW), header % 2 ^ cfg.lenW, payload⟩

/-- The message of an operation: its header and its payload bytes. -/
def encodeMessage (cfg : Config) (i : Instr) : Nat × List Byte := ((encode i).header cfg, (encode i).p)

/-- A request's size in bits: 2 + `LEN_W` bits of header and `len` bytes of payload (R66). -/
def Request.sizeBits (cfg : Config) (q : Request) : Nat := 2 + cfg.lenW + 8 * q.len

/-- The request whose bits are `w % 2^nbits`, numbered as spec/opcode_table.json numbers them: the row's format is
"op[1:0], len[LEN_W-1:0], payload p[0..len-1]" and its match applies to bits 1..0, so `op` is bits 1..0, `len` the
`LEN_W` bits above it, and payload byte k the eight bits from bit 2 + `LEN_W` + 8k.
DESIGN CHOICE (notes/assumptions/9.md): the order above bit 1; and, where `nbits` is not the request's size
2 + `LEN_W` + 8 * `len` (R66), that bits of `len` or of the payload from bit `nbits` up read as 0, and that bits of `w`
above the request's size are ignored. -/
def tableRequest (cfg : Config) (nbits w : Nat) : Request :=
  let v := w % 2 ^ nbits
  let len := v / 4 % 2 ^ cfg.lenW
  ⟨BitVec.ofNat 2 v, len, (List.range len).map fun k => BitVec.ofNat 8 (v / 2 ^ (2 + cfg.lenW + 8 * k))⟩

/-- The instruction the decoder reads from a word numbered as spec/opcode_table.json numbers it, for the parameters of
`Config.asBuilt`. -/
def decodeTableWord (nbits w : Nat) : Option Instr :=
  match decode Config.asBuilt (tableRequest Config.asBuilt nbits w) with
  | .ok i => some i
  | .error _ => none

end Sys2Proof
end

