-- ==== Sys2Proof/Machine/State.lean ====
section
/-! DEFINITION. The state of one z85_codec instance (10_state.md R14, R21, R25) together with the outside world it is
run against (the requester's side of the two channels, and the order of events), all plain data. -/

namespace Sys2Proof.Machine

/-- The two read-only address spaces (20_memory.md R26). -/
inductive RomSpace where
  /-- `ALPHA_ROM`, the Alphabet Table: 85 entries (R28). -/
  | alpha
  /-- `INV_ROM`, the Inverse Table: 95 entries (R34). -/
  | inv
  deriving DecidableEq, Repr

/-- The contents of one ROM: its entries that differ from what the block is built with (`RomSpace.built`), addresses
strictly rising. The form is `Memory.wf` (Machine/Ops.lean). -/
abbrev Memory := List Host.Cell

/-- A response, with exactly the fields of 30_encoding.md R57. The fields of width `LEN_W` and `LEN_W` + 1 are numbers,
and `Response.wf` (Safety.lean) says that they fit. -/
structure Response where
  /-- `status`: 2 bits (R59). -/
  status : BitVec 2
  /-- `ovf`: 1 bit. -/
  ovf : Bool
  /-- `out_len`: `LEN_W` + 1 bits. -/
  outLen : Nat
  /-- `r[0..out_len-1]`: the output, element 0 first. -/
  r : List Byte
  /-- `err_len`: `LEN_W` bits. -/
  errLen : Nat
  /-- `err_div`: 3 bits. -/
  errDiv : BitVec 3
  /-- `err_index`: `LEN_W` bits. -/
  errIndex : Nat
  /-- `err_code`: 8 bits. -/
  errCode : Byte
  /-- `err_op`: 2 bits. -/
  errOp : Op
  deriving DecidableEq, Repr

/-- `IFSTATE` (R21). -/
inductive IfState where
  /-- No request outstanding. -/
  | idle
  /-- Request q accepted, its response not yet offered. -/
  | busy (q : Request)
  /-- Response r offered and not yet taken. -/
  | done (r : Response)
  deriving DecidableEq, Repr

/-- What has the next chance to happen: one of the four transitions of R21, or nothing at all. A turn whose transition
is not enabled passes without effect (notes/assumptions/4.md). -/
inductive Turn where
  /-- The request channel tries to hand over the request offered on it. -/
  | accept
  /-- The block completes the request it is busy with. -/
  | complete
  /-- The requester takes the response offered to it. -/
  | deliver
  /-- Reset. -/
  | reset
  /-- Time passes and nothing else happens (`LATENCY`, R122). -/
  | clk
  deriving DecidableEq, Repr

/-- The faults of the model. No step raises one. -/
inductive Fault where
  /-- A read of a ROM address that does not belong to the space. Raised by `memRead` and so by `alphaLookup`: a model
  refuses such an address and no operation generates it (R33, R38; 93_implementation_defined.md I4, I5). Safe. -/
  | noSuchRomAddress (space : RomSpace) (addr : Nat)
  /-- A read of the response channel while no response is offered. Raised by `readResponse`: the values are unspecified
  there and a model must not read them (R115; 93_implementation_defined.md I6). DEDUCED: that such a read is a fault
  (notes/assumptions/11.md). Safe. -/
  | noResponseOffered
  deriving DecidableEq, Repr

/-- The refusals of the model. -/
inductive Refusal where
  /-- An instruction that has no meaning yet. Raised by an arm of `exec` only, and no arm raises it. Safe. -/
  | notModelled (mnemonic : String)
  /-- The requester's side holds a record that is no request of this instance. Raised by `acceptRequest` and
  `completeRequest`: it cannot be expressed on the interface (R54; 93_implementation_defined.md I10). Safe. -/
  | inexpressibleRequest (why : DecodeError)
  deriving DecidableEq, Repr

/-- The state. The spec's own state is `alphaRom`, `invRom` and `ifState` (R14: "exactly"). The other fields are the
model's own: the build parameters, which no step changes (notes/assumptions/1.md), and the outside world
(notes/assumptions/3.md). -/
structure State where
  /-- The build parameters of the instance (00_scope.md R7). Configuration, not state of the spec. -/
  cfg : Config
  /-- The contents of `ALPHA_ROM` (R14, R28). -/
  alphaRom : Memory
  /-- The contents of `INV_ROM` (R14, R34). -/
  invRom : Memory
  /-- `IFSTATE` (R21). -/
  ifState : IfState
  /-- Outside: the requests the requester holds, in the order it issues them; the head is offered on the request
  channel and waits there until it is accepted (R69, R118). -/
  offered : List Request
  /-- Outside: whether the requester takes a response once `turns` is used up (R120). -/
  taking : Bool
  /-- Outside: which event has its chance at each of the next steps, first one first. -/
  turns : List Turn
  /-- Outside: the responses delivered so far, first one first (R69). -/
  delivered : List Response
  deriving DecidableEq, Repr

/-- The state right after reset (R25): constant ROMs and `IDLE`. No request is offered, no response was delivered. -/
def State.reset : State where
  cfg := Config.asBuilt
  alphaRom := []
  invRom := []
  ifState := .idle
  offered := []
  taking := true
  turns := []
  delivered := []

end Sys2Proof.Machine
end

