-- ==== Sys2Proof/Machine/Flags.lean ====
section
/-! DEFINITION. The flags of a response and of unit `z85_decoder`. None of them persists (10_state.md R19). -/

namespace Sys2Proof.Machine

/-- `vmask[4:0]`: bit k is the `valid` bit of character k of the group (30_encoding.md R64, 42_decoder.md R82). -/
def groupVmask (v0 v1 v2 v3 v4 : Bool) : BitVec 5 :=
  BitVec.ofBool v4 ++ BitVec.ofBool v3 ++ BitVec.ofBool v2 ++ BitVec.ofBool v1 ++ BitVec.ofBool v0

/-- `govf`: the exact value of the group does not fit 32 bits (R82, R83). -/
def groupOvf (exact : Nat) : Bool := decide (2 ^ 32 ≤ exact)

/-- `o <- o OR govf` (R85): DEC's `ovf` gathers the flags of its groups (R89). -/
def gatherOvf (o govf : Bool) : Bool := o || govf

end Sys2Proof.Machine
end

