-- ==== Sys2Proof/Machine/Operands.lean ====
section
/-! DEFINITION. Operand assembly: the layouts of 30_encoding.md R60, R61 and R62, all most significant first
(20_memory.md R41). -/

namespace Sys2Proof.Machine

/-- The byte group word `(b0, b1, b2, b3)`: b0 in `w[31:24]`, b3 in `w[7:0]` (R60). -/
def groupWord (b0 b1 b2 b3 : Byte) : Word := b0 ++ b1 ++ b2 ++ b3

/-- Byte `k` of a decoded word: `w[31:24]` for k = 0, down to `w[7:0]` for k = 3 (R62). -/
def wordByte (w : Word) (k : Nat) : Byte := w.extractLsb' (24 - 8 * k) 8

/-- A decoded word split into its four bytes, most significant first (R62). -/
def splitWord (w : Word) : List Byte := [wordByte w 0, wordByte w 1, wordByte w 2, wordByte w 3]

/-- The character group `(c0, c1, c2, c3, c4)`: c0 in `c[39:32]`, c4 in `c[7:0]` (R61). -/
def packChars (c0 c1 c2 c3 c4 : Byte) : CharGroup := c0 ++ c1 ++ c2 ++ c3 ++ c4

/-- Character `k` of a group: `c[39:32]` for k = 0, down to `c[7:0]` for k = 4 (R61). -/
def charAt (c : CharGroup) (k : Nat) : Byte := c.extractLsb' (32 - 8 * k) 8

/-- A character group split into its five characters, character 0 first (R61). -/
def splitChars (c : CharGroup) : List Byte := [charAt c 0, charAt c 1, charAt c 2, charAt c 3, charAt c 4]

/-- The digit vector `(d0, d1, d2, d3, d4)`: d0 in bits [34:28], d4 in bits [6:0] (R62). -/
def packDigits (d0 d1 d2 d3 d4 : Digit) : DigitVector := d0 ++ d1 ++ d2 ++ d3 ++ d4

/-- Digit `k` of a digit vector (R62). -/
def digitAt (v : DigitVector) (k : Nat) : Digit := v.extractLsb' (28 - 7 * k) 7

end Sys2Proof.Machine
end

