-- ==== Sys2Proof/Machine/Roms.lean ====
section
/-! DEFINITION. What the two ROMs are built with, written out from the spec's own tables (20_memory.md R30, R39). -/

namespace Sys2Proof.Machine

/-- The contents of `ALPHA_ROM` from address 0 up: the code of the character of each digit (R30). -/
def alphaTable : List Byte :=
  [0x30, 0x31, 0x32, 0x33, 0x34, 0x35, 0x36, 0x37, 0x38, 0x39, 0x61, 0x62, 0x63, 0x64, 0x65, 0x66] ++
  [0x67, 0x68, 0x69, 0x6A, 0x6B, 0x6C, 0x6D, 0x6E, 0x6F, 0x70, 0x71, 0x72, 0x73, 0x74, 0x75, 0x76] ++
  [0x77, 0x78, 0x79, 0x7A, 0x41, 0x42, 0x43, 0x44, 0x45, 0x46, 0x47, 0x48, 0x49, 0x4A, 0x4B, 0x4C] ++
  [0x4D, 0x4E, 0x4F, 0x50, 0x51, 0x52, 0x53, 0x54, 0x55, 0x56, 0x57, 0x58, 0x59, 0x5A, 0x2E, 0x2D] ++
  [0x3A, 0x2B, 0x3D, 0x5E, 0x21, 0x2F, 0x2A, 0x3F, 0x26, 0x3C, 0x3E, 0x28, 0x29, 0x5B, 0x5D, 0x7B] ++
  [0x7D, 0x40, 0x25, 0x24, 0x23]

/-- The contents of `INV_ROM` from address 0 (code 0x20) up, each entry `(valid[7], digit[6:0])` (R35, R39). -/
def invTable : List Byte :=
  [0x00, 0xC4, 0x00, 0xD4, 0xD3, 0xD2, 0xC8, 0x00, 0xCB, 0xCC, 0xC6, 0xC1, 0x00, 0xBF, 0xBE, 0xC5] ++
  [0x80, 0x81, 0x82, 0x83, 0x84, 0x85, 0x86, 0x87, 0x88, 0x89, 0xC0, 0x00, 0xC9, 0xC2, 0xCA, 0xC7] ++
  [0xD1, 0xA4, 0xA5, 0xA6, 0xA7, 0xA8, 0xA9, 0xAA, 0xAB, 0xAC, 0xAD, 0xAE, 0xAF, 0xB0, 0xB1, 0xB2] ++
  [0xB3, 0xB4, 0xB5, 0xB6, 0xB7, 0xB8, 0xB9, 0xBA, 0xBB, 0xBC, 0xBD, 0xCD, 0x00, 0xCE, 0xC3, 0x00] ++
  [0x00, 0x8A, 0x8B, 0x8C, 0x8D, 0x8E, 0x8F, 0x90, 0x91, 0x92, 0x93, 0x94, 0x95, 0x96, 0x97, 0x98] ++
  [0x99, 0x9A, 0x9B, 0x9C, 0x9D, 0x9E, 0x9F, 0xA0, 0xA1, 0xA2, 0xA3, 0xCF, 0x00, 0xD0, 0x00]

/-- The contents a ROM is built with; `none` at an address that does not belong to the space (R28, R33, R34, R38).
This is what an address that `Memory` does not list reads as. -/
def RomSpace.built : RomSpace → Nat → Option Byte
  | .alpha, addr => alphaTable[addr]?
  | .inv, addr => invTable[addr]?

end Sys2Proof.Machine
end

