-- ==== Sys2Proof/Machine/Ops.lean ====
section
/-! DEFINITION. The shared operations: the ROM reads and the two lookups (20_memory.md, 40_tables.md), answering a
request (30_encoding.md R58, R59; 60_exceptions.md R94 to R98), and the transitions of the interface automaton
(10_state.md R21; 70_reset_and_hazards.md). -/

namespace Sys2Proof.Machine

/-! ### Updates of one field -/

/-- `IFSTATE` becomes `x`. -/
def State.setIf (s : State) (x : IfState) : State := { s with ifState := x }

/-- The remaining turns become `ts`. -/
def State.setTurns (s : State) (ts : List Turn) : State := { s with turns := ts }

/-- The requests the requester still holds become `qs`. -/
def State.setOffered (s : State) (qs : List Request) : State := { s with offered := qs }

/-- The responses delivered become `rs`. -/
def State.setDelivered (s : State) (rs : List Response) : State := { s with delivered := rs }

/-! ### The ROMs -/

/-- The cell a memory lists at an address. -/
def Memory.cell? : Memory → Nat → Option Byte
  | [], _ => none
  | (a, b) :: m, addr => if a = addr then some b else Memory.cell? m addr

/-- `MemRead(space, addr, 1)` (R11, R27): one entry. An address that does not belong to the space is refused (R33, R38).
There is no wider read (R27) and no write (R11, R31). -/
def memRead (space : RomSpace) (m : Memory) (addr : Nat) : Except Fault Byte :=
  match space.built addr with
  | none => .error (.noSuchRomAddress space addr)
  | some b => .ok ((Memory.cell? m addr).getD b)

/-- The addresses of the cells are above `lo` and strictly rising. -/
def Memory.rising : Nat → Memory → Bool
  | _, [] => true
  | lo, (a, _) :: m => decide (lo ≤ a) && Memory.rising (a + 1) m

/-- The canonical form of a memory: addresses strictly rising, each an address of the space, and no cell equal to what
the space is built with there. -/
def Memory.wf (space : RomSpace) (m : Memory) : Bool :=
  Memory.rising 0 m && m.all fun c => (space.built c.1).any (· != c.2)

/-- `AlphaLookup(d)` (R70): a read of unit `alphabet_rom`; addresses 85 to 127 are refused (R33). -/
def alphaLookup (rom : Memory) (d : Digit) : Except Fault Byte := memRead .alpha rom d.toNat

/-- `InvLookup(c)` (R71): unit `inverse_alphabet_rom`. A code outside 32..126 is answered without reading the ROM. -/
def invLookup (rom : Memory) (c : Byte) : Except Fault Byte :=
  if 32 ≤ c.toNat ∧ c.toNat ≤ 126 then memRead .inv rom (c.toNat - 32) else .ok 0x00#8

/-- `valid[7]` of an `INV_ROM` entry (R35). -/
def entryValid (e : Byte) : Bool := e.getLsbD 7

/-- `digit[6:0]` of an `INV_ROM` entry (R35). -/
def entryDigit (e : Byte) : Digit := e.extractLsb' 0 7

/-! ### Answering a request -/

/-- `OK` (R59). -/
def statusOk : BitVec 2 := 0b00#2
/-- `INVALID_LENGTH` (R59). -/
def statusInvalidLength : BitVec 2 := 0b01#2
/-- `INVALID_CHARACTER` (R59). -/
def statusInvalidCharacter : BitVec 2 := 0b10#2
/-- `ILLEGAL_OP` (R59). -/
def statusIllegalOp : BitVec 2 := 0b11#2

/-- The response of `respond OK(r, ovf)` (R58). -/
def respondOk (r : List Byte) (ovf : Bool) : Response where
  status := statusOk
  ovf := ovf
  outLen := r.length
  r := r
  errLen := 0
  errDiv := 0
  errIndex := 0
  errCode := 0
  errOp := 0

/-- The errors (R95: no other error exists, R99), each with what it records. -/
inductive BlockError where
  /-- `len` is not a multiple of the group size (R96). -/
  | invalidLength (len : Nat) (div : BitVec 3)
  /-- DEC under `STRICT` met a character outside the alphabet (R97). -/
  | invalidCharacter (index : Nat) (code : Byte)
  /-- `op` is reserved (R98). -/
  | illegalOp (op : Op)
  deriving DecidableEq, Repr

/-- `raise <Error>(info)` (R11, R58, R95): the error's status, no output, `ovf` = 0, the fields the error defines, and
the other `err_*` fields 0. This is the block's only exceptional outcome (R94), and taking it saves no state and
transfers control nowhere (R101). -/
def raiseError : BlockError → Response
  | .invalidLength len div => ⟨statusInvalidLength, false, 0, [], len, div, 0, 0, 0⟩
  | .invalidCharacter index code => ⟨statusInvalidCharacter, false, 0, [], 0, 0, index, code, 0⟩
  | .illegalOp op => ⟨statusIllegalOp, false, 0, [], 0, 0, 0, 0, op⟩

/-- `complete`: the response of the request is offered, whole (R21, R24). -/
def offerResponse (r : Response) (s : State) : State := s.setIf (.done r)

/-- What the machine does with the response that an operation computes. The fault of a ROM read would stop it; no
operation raises one. -/
def finish (answer : Except Fault Response) (s : State) : Host.Outcome State Fault Refusal :=
  match answer with
  | .ok r => .next (offerResponse r s)
  | .error f => .fault f

/-! ### The interface automaton -/

/-- A read of the response channel: what is offered there; unspecified, and so not to be read, while nothing is
offered (R24, R115). That such a read is a fault is DEDUCED (notes/assumptions/11.md). -/
def readResponse (s : State) : Except Fault Response :=
  match s.ifState with
  | .done r => .ok r
  | .idle => .error .noResponseOffered
  | .busy _ => .error .noResponseOffered

/-- The request channel accepts only in `IDLE` (R118). -/
def accepting (s : State) : Bool :=
  match s.ifState with
  | .idle => true
  | .busy _ => false
  | .done _ => false

/-- `accept(q)`: the request channel hands over the request offered on it, whole (R21, R119). In `BUSY` and `DONE` it is
not accepted and waits (R118). A record that is no request of the instance is refused. -/
def acceptRequest (s : State) : Host.Outcome State Fault Refusal :=
  match accepting s, s.offered with
  | true, q :: qs =>
    match decode s.cfg q with
    | .ok _ => .next ((s.setIf (.busy q)).setOffered qs)
    | .error e => .refused (.inexpressibleRequest e)
  | true, [] => .next s
  | false, _ => .next s

/-- `deliver`: the response channel hands over the response, whole, and the block is `IDLE` again, after an error as
after any other response (R21, R102, R119). There is no other return from an error (R102). -/
def deliverResponse (s : State) : State :=
  match readResponse s with
  | .ok r => (s.setIf .idle).setDelivered (s.delivered ++ [r])
  | .error _ => s

/-- `reset`: `IFSTATE` becomes `IDLE`; an accepted request is discarded and an untaken response is withdrawn (R113);
the ROMs keep their contents (R114). -/
def resetBlock (s : State) : State := s.setIf .idle

/-- The event that happens when no turn is left: a request offered in `IDLE` is accepted, an accepted request is
completed (R122: it is always eventually), and a response is delivered if the requester takes responses (R120). -/
def defaultTurn (s : State) : Turn :=
  match s.ifState with
  | .idle => .accept
  | .busy _ => .complete
  | .done _ => if s.taking then .deliver else .clk

end Sys2Proof.Machine
end

