-- ==== Sys2Proof/Machine/Decoder.lean ====
section
/-! DEFINITION. Unit `z85_decoder` and the DEC operation (42_decoder.md). -/

namespace Sys2Proof.Machine

/-- The outputs of unit `z85_decoder`: `w[31:0]`, `vmask[4:0]`, `govf` (30_encoding.md R64). -/
structure DecodedGroup where
  /-- The word: the exact value modulo 2^32. -/
  w : Word
  /-- The `valid` bit of each character. -/
  vmask : BitVec 5
  /-- The exact value did not fit 32 bits. -/
  govf : Bool
  deriving DecidableEq, Repr

/-- One Horner step on the 32-bit accumulator, cut to 32 bits (R82, R84). -/
def hornerStep (acc : Word) (d : Digit) : Word := acc * 85#32 + d.setWidth 32

/-- One Horner step on the exact value (R82). -/
def exactStep (ex : Nat) (d : Digit) : Nat := ex * 85 + d.toNat

/-- `DecodeGroup(c)` (R82): unit `z85_decoder`, `c[39:0]` in. The characters are taken left to right. -/
def decodeGroup (rom : Memory) (c : CharGroup) : Except Fault DecodedGroup := do
  let e0 ← invLookup rom (charAt c 0)
  let e1 ← invLookup rom (charAt c 1)
  let e2 ← invLookup rom (charAt c 2)
  let e3 ← invLookup rom (charAt c 3)
  let e4 ← invLookup rom (charAt c 4)
  let digits := [entryDigit e0, entryDigit e1, entryDigit e2, entryDigit e3, entryDigit e4]
  return {
    w := digits.foldl hornerStep 0#32
    vmask := groupVmask (entryValid e0) (entryValid e1) (entryValid e2) (entryValid e3) (entryValid e4)
    govf := groupOvf (digits.foldl exactStep 0) }

/-- The bytes of the payload's consecutive character groups, group 0 first, and the gathered overflow flag, from the
flag `o` gathered so far (R43, R85). -/
def decodeGroups (rom : Memory) (o : Bool) : List Byte → Except Fault (List Byte × Bool)
  | c0 :: c1 :: c2 :: c3 :: c4 :: rest => do
    let g ← decodeGroup rom (packChars c0 c1 c2 c3 c4)
    let (bs, o') ← decodeGroups rom (gatherOvf o g.govf) rest
    return (splitWord g.w ++ bs, o')
  | _ => .ok ([], o)

/-- The check of `STRICT` (R85, R87): the lowest index, counted from `i`, whose code is unmapped, with that code. -/
def firstUnmapped (rom : Memory) (i : Nat) : List Byte → Except Fault (Option (Nat × Byte))
  | [] => .ok none
  | c :: rest => do
    let e ← invLookup rom c
    if entryValid e then firstUnmapped rom (i + 1) rest else return some (i, c)

/-- What the policy lets through: under `STRICT` the first unmapped character, if there is one, is reported (R87);
under `LENIENT` none ever is (R88). -/
def offendingCharacter (policy : DecodePolicy) (rom : Memory) (p : List Byte) : Except Fault (Option (Nat × Byte)) :=
  match policy with
  | .strict => firstUnmapped rom 0 p
  | .lenient => .ok none

/-- `DECOp(policy, q)` (R85): first the length (R86), then under `STRICT` the characters (R87), then the groups. -/
def decOp (policy : DecodePolicy) (rom : Memory) (p : List Byte) : Except Fault Response :=
  if p.length % 5 ≠ 0 then .ok (raiseError (.invalidLength p.length 5#3))
  else do
    match ← offendingCharacter policy rom p with
    | some (i, c) => return raiseError (.invalidCharacter i c)
    | none =>
      let (bs, o) ← decodeGroups rom false p
      return respondOk bs o

/-- `DEC` (R85). -/
def execDec (p : List Byte) (s : State) : Host.Outcome State Fault Refusal :=
  finish (decOp s.cfg.decodePolicy s.invRom p) s

end Sys2Proof.Machine
end

