-- ==== Sys2Proof/Machine/Encoder.lean ====
section
/-! DEFINITION. Unit `z85_encoder` and the ENC operation (41_encoder.md). -/

namespace Sys2Proof.Machine

/-- A remainder of a division by 85, on its 7 bits; it is at most 84 (R74). -/
def remainderDigit (q : Nat) : Digit := BitVec.ofNat 7 (q % 85)

/-- The five digits of a word, least significant digit first out of the divisions and d0 most significant in the
vector (R74). -/
def encodeDigits (w : Word) : DigitVector :=
  let q4 := w.toNat
  let q3 := q4 / 85
  let q2 := q3 / 85
  let q1 := q2 / 85
  let q0 := q1 / 85
  packDigits (remainderDigit q0) (remainderDigit q1) (remainderDigit q2) (remainderDigit q3) (remainderDigit q4)

/-- `EncodeGroup(w)` (R74): unit `z85_encoder`, `w[31:0]` in and `c[39:0]` out. -/
def encodeGroup (rom : Memory) (w : Word) : Except Fault CharGroup := do
  let v := encodeDigits w
  let c0 ← alphaLookup rom (digitAt v 0)
  let c1 ← alphaLookup rom (digitAt v 1)
  let c2 ← alphaLookup rom (digitAt v 2)
  let c3 ← alphaLookup rom (digitAt v 3)
  let c4 ← alphaLookup rom (digitAt v 4)
  return packChars c0 c1 c2 c3 c4

/-- The characters of the payload's consecutive byte groups, group 0 first (R43, R77). -/
def encodeGroups (rom : Memory) : List Byte → Except Fault (List Byte)
  | b0 :: b1 :: b2 :: b3 :: rest => do
    let c ← encodeGroup rom (groupWord b0 b1 b2 b3)
    let cs ← encodeGroups rom rest
    return splitChars c ++ cs
  | _ => .ok []

/-- `ENCOp(q)` (R77): the length is checked before any group is encoded (R79). -/
def encOp (rom : Memory) (p : List Byte) : Except Fault Response :=
  if p.length % 4 ≠ 0 then .ok (raiseError (.invalidLength p.length 4#3))
  else do
    let r ← encodeGroups rom p
    return respondOk r false

/-- `ENC` (R77). -/
def execEnc (p : List Byte) (s : State) : Host.Outcome State Fault Refusal :=
  finish (encOp s.alphaRom p) s

end Sys2Proof.Machine
end

