-- ==== Sys2Proof/Machine/Reserved.lean ====
section
/-! DEFINITION. The two reserved values of `op` (30_encoding.md R65; 60_exceptions.md R98). Both are answered with
ILLEGAL_OP, whatever the length and the payload. -/

namespace Sys2Proof.Machine

/-- `op` = 0b00 (R98). -/
def execReservedOp00 (_p : List Byte) (s : State) : Host.Outcome State Fault Refusal :=
  finish (.ok (raiseError (.illegalOp 0b00#2))) s

/-- `op` = 0b11 (R98). -/
def execReservedOp11 (_p : List Byte) (s : State) : Host.Outcome State Fault Refusal :=
  finish (.ok (raiseError (.illegalOp 0b11#2))) s

end Sys2Proof.Machine
end

