-- ==== Sys2Proof/Machine/Dispatch.lean ====
section
/-! DEFINITION. One arm per operation: the `complete` transition of a request that carries it (10_state.md R21, R22). -/

namespace Sys2Proof.Machine

/-- What completing an operation does to the state. -/
def exec (i : Instr) (s : State) : Host.Outcome State Fault Refusal :=
  match i with
  | .enc p => Sys2Proof.Machine.execEnc p s
  | .dec p => Sys2Proof.Machine.execDec p s
  | .reservedOp00 p => Sys2Proof.Machine.execReservedOp00 p s
  | .reservedOp11 p => Sys2Proof.Machine.execReservedOp11 p s

end Sys2Proof.Machine
end

