-- ==== Sys2Proof/Machine/Sequence.lean ====
section
/-! DEFINITION. The codec as one function of the request (10_state.md R22), the `complete` transition, and one turn of
the interface automaton. -/

namespace Sys2Proof.Machine

/-- `Codec(policy, q)` (R22) of a decoded request, over the contents of the two ROMs. -/
def codec (policy : DecodePolicy) (alphaRom invRom : Memory) : Instr → Except Fault Response
  | .enc p => encOp alphaRom p
  | .dec p => decOp policy invRom p
  | .reservedOp00 _ => .ok (raiseError (.illegalOp 0b00#2))
  | .reservedOp11 _ => .ok (raiseError (.illegalOp 0b11#2))

/-- `complete`: in `BUSY(q)` the operation of q is performed (R21). Here the model fetches: the request held in
`IFSTATE` is decoded and the operation is executed (notes/assumptions/5.md). -/
def completeRequest (s : State) : Host.Outcome State Fault Refusal :=
  match s.ifState with
  | .busy q =>
    match decode s.cfg q with
    | .ok i => exec i s
    | .error e => .refused (.inexpressibleRequest e)
  | .idle => .next s
  | .done _ => .next s

/-- One turn: its transition if that is enabled, and nothing otherwise (R21). -/
def takeTurn (t : Turn) (s : State) : Host.Outcome State Fault Refusal :=
  match t with
  | .accept => acceptRequest s
  | .complete => completeRequest s
  | .deliver => .next (deliverResponse s)
  | .reset => .next (resetBlock s)
  | .clk => .next s

/-- The next turn and the state it is taken in: the head of `turns`, which it uses up, or the default one. -/
def nextTurn (s : State) : Turn × State :=
  match s.turns with
  | [] => (defaultTurn s, s)
  | t :: ts => (t, s.setTurns ts)

/-- The state with a request in the place where the next step fetches: `BUSY(q)`, with no turn before its completion. -/
def placeRequest (s : State) (q : Request) : State := (s.setIf (.busy q)).setTurns []

end Sys2Proof.Machine
end

