-- ==== Sys2Proof/Machine/Step.lean ====
section
/-! DEFINITION. One step: one turn of the interface automaton (10_state.md R21). -/

namespace Sys2Proof.Machine

/-- One step of the machine. -/
def step (s : State) : Host.Outcome State Fault Refusal :=
  takeTurn (nextTurn s).1 (nextTurn s).2

/-- The state with the request of a table word accepted and next to be completed, so that the next step runs exactly it. -/
def State.withFetchWord (s : State) (nbits w : Nat) : State :=
  placeRequest s (tableRequest s.cfg nbits w)

end Sys2Proof.Machine
end

