-- ==== Sys2Proof/Machine/Program.lean ====
section
/-! DEFINITION. Programs: the lines that 30_encoding.md R67 and R68 write requests with, what they expand to, and the
list of requests a program is (R69). The text of a line is not parsed: a line is given by its form and its operands. -/

namespace Sys2Proof.Machine

/-- The code of a character: its standard ASCII code (00_scope.md R12), one byte per character (R56).
DESIGN CHOICE, unsafe: R12 and R67 give codes to ASCII characters only, and 92_eei_decisions.md D22 says that a code above
255 cannot be expressed. For a character outside ASCII this function gives the low 8 bits of its Unicode number, which may
be the code of another character (U+0130 gives 0x30); see notes/assumptions/16.md. -/
def charCode (c : Char) : Byte := BitVec.ofNat 8 c.toNat

/-- One line of a program: the request forms of R67 and the pseudo-requests of R68. -/
inductive Line where
  /-- `ENC b0 b1 ...` -/
  | enc (bs : List Byte)
  /-- `DEC "text"` -/
  | decText (text : List Char)
  /-- `DEC.x b0 b1 ...` -/
  | decHex (bs : List Byte)
  /-- `REQ op=0bXX b0 ...` -/
  | req (op : Op) (bs : List Byte)
  /-- `ENCW w0, w1, ...` -/
  | encw (ws : List Word)
  /-- `NOP` -/
  | nop
  deriving DecidableEq, Repr

/-- The request of a line; `NOP` is no request (R67, R68). -/
def Line.request : Line → Option Request
  | .enc bs => some ⟨0b01#2, bs.length, bs⟩
  | .decText text => some ⟨0b10#2, text.length, text.map charCode⟩
  | .decHex bs => some ⟨0b10#2, bs.length, bs⟩
  | .req op bs => some ⟨op, bs.length, bs⟩
  | .encw ws => some ⟨0b01#2, (ws.flatMap splitWord).length, ws.flatMap splitWord⟩
  | .nop => none

/-- The requests of a program, in list order (R69). -/
def assemble (lines : List Line) : List Request := lines.filterMap Line.request

/-- The state in which the requester holds a program's requests, to be issued in order (R69). -/
def State.withProgram (s : State) (qs : List Request) : State := s.setOffered qs

/-- The forms in which R67 writes a response. -/
inductive ResponseLine where
  /-- `OK "text" ovf=0`: an ENC output, as characters. -/
  | okText (text : List Byte) (ovf : Bool)
  /-- `OK b0 b1 ... ovf=o`: a DEC output, as bytes. -/
  | okBytes (bs : List Byte) (ovf : Bool)
  /-- `ERR INVALID_LENGTH len=n div=d` -/
  | errInvalidLength (len : Nat) (div : BitVec 3)
  /-- `ERR INVALID_CHARACTER index=i code=0xcc` -/
  | errInvalidCharacter (index : Nat) (code : Byte)
  /-- `ERR ILLEGAL_OP op=0bXX` -/
  | errIllegalOp (op : Op)
  deriving DecidableEq, Repr

/-- The line that R67 writes for the response to a request with the given `op`. -/
def responseLine (op : Op) (r : Response) : ResponseLine :=
  if r.status = statusInvalidLength then .errInvalidLength r.errLen r.errDiv
  else if r.status = statusInvalidCharacter then .errInvalidCharacter r.errIndex r.errCode
  else if r.status = statusIllegalOp then .errIllegalOp r.errOp
  else if op = 0b01#2 then .okText r.r r.ovf
  else .okBytes r.r r.ovf

end Sys2Proof.Machine
end

