-- ==== Sys2Proof/Safety.lean ====
section
/-! DEFINITION. The terms the claims use: the alphabet and the group values of the spec as plain numbers, independent of
the units' datapaths; what a well-formed response and a well-formed state are; and runs. -/

namespace Sys2Proof.Machine

/-! ### The alphabet and the values of groups -/

/-- The code of the character of a digit, straight from the Alphabet Table (R28, R30); 0 for a number that is no digit. -/
def charOfDigit (d : Nat) : Byte := alphaTable.getD d 0

/-- A mapped code is the code of one of the 85 alphabet characters (00_scope.md R13). -/
def mapped (c : Byte) : Bool := alphaTable.contains c

/-- The position of a mapped code in the Alphabet Table; 0 for an unmapped code (R35). -/
def digitOfChar (c : Byte) : Nat := if mapped c then alphaTable.idxOf c else 0

/-- The value of byte group `g` of a payload: bytes 4g to 4g+3, most significant first (R41, R43, R60). -/
def bytesValue (p : List Byte) (g : Nat) : Nat :=
  (p.getD (4 * g) 0).toNat * 2 ^ 24 + (p.getD (4 * g + 1) 0).toNat * 2 ^ 16
    + (p.getD (4 * g + 2) 0).toNat * 2 ^ 8 + (p.getD (4 * g + 3) 0).toNat

/-- The exact value of character group `g` of a text: characters 5g to 5g+4, most significant first (R43, R83). -/
def exactValue (p : List Byte) (g : Nat) : Nat :=
  digitOfChar (p.getD (5 * g) 0) * 85 ^ 4 + digitOfChar (p.getD (5 * g + 1) 0) * 85 ^ 3
    + digitOfChar (p.getD (5 * g + 2) 0) * 85 ^ 2 + digitOfChar (p.getD (5 * g + 3) 0) * 85
    + digitOfChar (p.getD (5 * g + 4) 0)

/-- Some group of the text does not fit 32 bits (R83, R89). -/
def someGroupOverflows (p : List Byte) : Bool :=
  (List.range (p.length / 5)).any fun g => decide (2 ^ 32 ≤ exactValue p g)

/-! ### Well-formed responses and states -/

/-- The fields that the status of a response leaves without meaning are 0, and an error carries no output (R57, R58, R95). -/
def Response.shape (r : Response) : Prop :=
  (r.status = statusOk ∧ r.errLen = 0 ∧ r.errDiv = 0 ∧ r.errIndex = 0 ∧ r.errCode = 0 ∧ r.errOp = 0)
  ∨ (r.status = statusInvalidLength ∧ r.ovf = false ∧ r.outLen = 0 ∧ (r.errDiv = 4 ∨ r.errDiv = 5)
      ∧ r.errLen % r.errDiv.toNat ≠ 0 ∧ r.errIndex = 0 ∧ r.errCode = 0 ∧ r.errOp = 0)
  ∨ (r.status = statusInvalidCharacter ∧ r.ovf = false ∧ r.outLen = 0 ∧ mapped r.errCode = false
      ∧ r.errLen = 0 ∧ r.errDiv = 0 ∧ r.errOp = 0)
  ∨ (r.status = statusIllegalOp ∧ r.ovf = false ∧ r.outLen = 0 ∧ (r.errOp = 0b00 ∨ r.errOp = 0b11)
      ∧ r.errLen = 0 ∧ r.errDiv = 0 ∧ r.errIndex = 0 ∧ r.errCode = 0)

/-- A response of an instance: `out_len` counts the output and fits `LEN_W` + 1 bits, `err_len` and `err_index` fit
`LEN_W` bits (R57), and the fields have their shape. -/
def Response.wf (cfg : Config) (r : Response) : Prop :=
  r.r.length = r.outLen ∧ r.outLen < 2 ^ (cfg.lenW + 1) ∧ r.errLen < 2 ^ cfg.lenW ∧ r.errIndex < 2 ^ cfg.lenW ∧ r.shape

/-- `IFSTATE` holds a request or a response of the instance. -/
def IfState.wf (cfg : Config) : IfState → Prop
  | .idle => True
  | .busy q => q.wf cfg
  | .done r => r.wf cfg

/-- The ROMs hold what the block is built with (R25, R31): no cell differs. -/
def State.RomsAsBuilt (s : State) : Prop := s.alphaRom = [] ∧ s.invRom = []

/-- The state is one of an instance: legal parameters, ROMs as built, and requests and responses of the instance's
widths in `IFSTATE` and in the responses delivered. -/
structure State.Inv (s : State) : Prop where
  cfg : s.cfg.wf
  roms : s.RomsAsBuilt
  ifState : s.ifState.wf s.cfg
  delivered : ∀ r ∈ s.delivered, Response.wf s.cfg r

/-- Every record the requester still holds is a request of the instance (R54). -/
def State.OffersRequests (s : State) : Prop := ∀ q ∈ s.offered, q.wf s.cfg

/-- `r` is the response that the instance gives to `q`: `Codec(DECODE_POLICY, q)` (R22). -/
def Answers (s : State) (q : Request) (r : Response) : Prop :=
  ∃ i, decode s.cfg q = .ok i ∧ codec s.cfg.decodePolicy s.alphaRom s.invRom i = .ok r

/-! ### Runs -/

/-- `n` steps, stopping at a fault or a refusal. -/
def stepN : Nat → State → Host.Outcome State Fault Refusal
  | 0, s => .next s
  | n + 1, s =>
    match step s with
    | .next t => stepN n t
    | .fault f => .fault f
    | .refused r => .refused r

/-- The response offered in the state an outcome goes on to, if there is one. -/
def offeredBy : Host.Outcome State Fault Refusal → Option Response
  | .next t => (readResponse t).toOption
  | .fault _ => none
  | .refused _ => none

end Sys2Proof.Machine
end

