-- ==== Sys2Proof/Laws/Layout.lean ====
section
/-! SUPPORT. The layouts of Machine/Operands.lean: what each slice of an assembled word is, and an assembled word's
value. -/

namespace Sys2Proof.Machine

/-- Character `k` of a group as a number (R61). -/
theorem charAt_toNat (c : CharGroup) (k : Nat) : (charAt c k).toNat = c.toNat / 2 ^ (32 - 8 * k) % 256 := by
  simp [charAt, BitVec.extractLsb'_toNat, Nat.shiftRight_eq_div_pow]

/-- Digit `k` of a digit vector as a number (R62). -/
theorem digitAt_toNat (v : DigitVector) (k : Nat) : (digitAt v k).toNat = v.toNat / 2 ^ (28 - 7 * k) % 128 := by
  simp [digitAt, BitVec.extractLsb'_toNat, Nat.shiftRight_eq_div_pow]

/-- Byte `k` of a word as a number (R62). -/
theorem wordByte_toNat (w : Word) (k : Nat) : (wordByte w k).toNat = w.toNat / 2 ^ (24 - 8 * k) % 256 := by
  simp [wordByte, BitVec.extractLsb'_toNat, Nat.shiftRight_eq_div_pow]

/-- The value of the byte group word: byte 0 is most significant (R60). -/
theorem groupWord_toNat (b0 b1 b2 b3 : Byte) :
    (groupWord b0 b1 b2 b3).toNat = b0.toNat * 2 ^ 24 + b1.toNat * 2 ^ 16 + b2.toNat * 2 ^ 8 + b3.toNat := by
  simp only [groupWord, BitVec.toNat_append]
  rw [← Nat.shiftLeft_add_eq_or_of_lt b3.isLt, ← Nat.shiftLeft_add_eq_or_of_lt b2.isLt, ← Nat.shiftLeft_add_eq_or_of_lt b1.isLt]
  simp only [Nat.shiftLeft_eq]
  omega

/-- The value of the character group: character 0 is most significant (R61). -/
theorem packChars_toNat (c0 c1 c2 c3 c4 : Byte) :
    (packChars c0 c1 c2 c3 c4).toNat = c0.toNat * 2 ^ 32 + c1.toNat * 2 ^ 24 + c2.toNat * 2 ^ 16 + c3.toNat * 2 ^ 8 + c4.toNat := by
  simp only [packChars, BitVec.toNat_append]
  rw [← Nat.shiftLeft_add_eq_or_of_lt c4.isLt, ← Nat.shiftLeft_add_eq_or_of_lt c3.isLt, ← Nat.shiftLeft_add_eq_or_of_lt c2.isLt, ← Nat.shiftLeft_add_eq_or_of_lt c1.isLt]
  simp only [Nat.shiftLeft_eq]
  omega

/-- The value of the digit vector: digit 0 is most significant (R62). -/
theorem packDigits_toNat (d0 d1 d2 d3 d4 : Digit) :
    (packDigits d0 d1 d2 d3 d4).toNat = d0.toNat * 2 ^ 28 + d1.toNat * 2 ^ 21 + d2.toNat * 2 ^ 14 + d3.toNat * 2 ^ 7 + d4.toNat := by
  simp only [packDigits, BitVec.toNat_append]
  rw [← Nat.shiftLeft_add_eq_or_of_lt d4.isLt, ← Nat.shiftLeft_add_eq_or_of_lt d3.isLt, ← Nat.shiftLeft_add_eq_or_of_lt d2.isLt, ← Nat.shiftLeft_add_eq_or_of_lt d1.isLt]
  simp only [Nat.shiftLeft_eq]
  omega

@[simp] theorem charAt_packChars_0 (c0 c1 c2 c3 c4 : Byte) : charAt (packChars c0 c1 c2 c3 c4) 0 = c0 := by
  apply BitVec.eq_of_toNat_eq; rw [charAt_toNat, packChars_toNat]; have := c0.isLt; have := c1.isLt; have := c2.isLt; have := c3.isLt; have := c4.isLt; omega
@[simp] theorem charAt_packChars_1 (c0 c1 c2 c3 c4 : Byte) : charAt (packChars c0 c1 c2 c3 c4) 1 = c1 := by
  apply BitVec.eq_of_toNat_eq; rw [charAt_toNat, packChars_toNat]; have := c0.isLt; have := c1.isLt; have := c2.isLt; have := c3.isLt; have := c4.isLt; omega
@[simp] theorem charAt_packChars_2 (c0 c1 c2 c3 c4 : Byte) : charAt (packChars c0 c1 c2 c3 c4) 2 = c2 := by
  apply BitVec.eq_of_toNat_eq; rw [charAt_toNat, packChars_toNat]; have := c0.isLt; have := c1.isLt; have := c2.isLt; have := c3.isLt; have := c4.isLt; omega
@[simp] theorem charAt_packChars_3 (c0 c1 c2 c3 c4 : Byte) : charAt (packChars c0 c1 c2 c3 c4) 3 = c3 := by
  apply BitVec.eq_of_toNat_eq; rw [charAt_toNat, packChars_toNat]; have := c0.isLt; have := c1.isLt; have := c2.isLt; have := c3.isLt; have := c4.isLt; omega
@[simp] theorem charAt_packChars_4 (c0 c1 c2 c3 c4 : Byte) : charAt (packChars c0 c1 c2 c3 c4) 4 = c4 := by
  apply BitVec.eq_of_toNat_eq; rw [charAt_toNat, packChars_toNat]; have := c0.isLt; have := c1.isLt; have := c2.isLt; have := c3.isLt; have := c4.isLt; omega

@[simp] theorem digitAt_packDigits_0 (d0 d1 d2 d3 d4 : Digit) : digitAt (packDigits d0 d1 d2 d3 d4) 0 = d0 := by
  apply BitVec.eq_of_toNat_eq; rw [digitAt_toNat, packDigits_toNat]; have := d0.isLt; have := d1.isLt; have := d2.isLt; have := d3.isLt; have := d4.isLt; omega
@[simp] theorem digitAt_packDigits_1 (d0 d1 d2 d3 d4 : Digit) : digitAt (packDigits d0 d1 d2 d3 d4) 1 = d1 := by
  apply BitVec.eq_of_toNat_eq; rw [digitAt_toNat, packDigits_toNat]; have := d0.isLt; have := d1.isLt; have := d2.isLt; have := d3.isLt; have := d4.isLt; omega
@[simp] theorem digitAt_packDigits_2 (d0 d1 d2 d3 d4 : Digit) : digitAt (packDigits d0 d1 d2 d3 d4) 2 = d2 := by
  apply BitVec.eq_of_toNat_eq; rw [digitAt_toNat, packDigits_toNat]; have := d0.isLt; have := d1.isLt; have := d2.isLt; have := d3.isLt; have := d4.isLt; omega
@[simp] theorem digitAt_packDigits_3 (d0 d1 d2 d3 d4 : Digit) : digitAt (packDigits d0 d1 d2 d3 d4) 3 = d3 := by
  apply BitVec.eq_of_toNat_eq; rw [digitAt_toNat, packDigits_toNat]; have := d0.isLt; have := d1.isLt; have := d2.isLt; have := d3.isLt; have := d4.isLt; omega
@[simp] theorem digitAt_packDigits_4 (d0 d1 d2 d3 d4 : Digit) : digitAt (packDigits d0 d1 d2 d3 d4) 4 = d4 := by
  apply BitVec.eq_of_toNat_eq; rw [digitAt_toNat, packDigits_toNat]; have := d0.isLt; have := d1.isLt; have := d2.isLt; have := d3.isLt; have := d4.isLt; omega

@[simp] theorem wordByte_groupWord_0 (b0 b1 b2 b3 : Byte) : wordByte (groupWord b0 b1 b2 b3) 0 = b0 := by
  apply BitVec.eq_of_toNat_eq; rw [wordByte_toNat, groupWord_toNat]; have := b0.isLt; have := b1.isLt; have := b2.isLt; have := b3.isLt; omega
@[simp] theorem wordByte_groupWord_1 (b0 b1 b2 b3 : Byte) : wordByte (groupWord b0 b1 b2 b3) 1 = b1 := by
  apply BitVec.eq_of_toNat_eq; rw [wordByte_toNat, groupWord_toNat]; have := b0.isLt; have := b1.isLt; have := b2.isLt; have := b3.isLt; omega
@[simp] theorem wordByte_groupWord_2 (b0 b1 b2 b3 : Byte) : wordByte (groupWord b0 b1 b2 b3) 2 = b2 := by
  apply BitVec.eq_of_toNat_eq; rw [wordByte_toNat, groupWord_toNat]; have := b0.isLt; have := b1.isLt; have := b2.isLt; have := b3.isLt; omega
@[simp] theorem wordByte_groupWord_3 (b0 b1 b2 b3 : Byte) : wordByte (groupWord b0 b1 b2 b3) 3 = b3 := by
  apply BitVec.eq_of_toNat_eq; rw [wordByte_toNat, groupWord_toNat]; have := b0.isLt; have := b1.isLt; have := b2.isLt; have := b3.isLt; omega

@[simp] theorem splitChars_packChars (c0 c1 c2 c3 c4 : Byte) :
    splitChars (packChars c0 c1 c2 c3 c4) = [c0, c1, c2, c3, c4] := by
  simp [splitChars]

@[simp] theorem splitWord_groupWord (b0 b1 b2 b3 : Byte) : splitWord (groupWord b0 b1 b2 b3) = [b0, b1, b2, b3] := by
  simp [splitWord]

/-- Putting a word's bytes together again gives the word. -/
@[simp] theorem groupWord_wordByte (w : Word) :
    groupWord (wordByte w 0) (wordByte w 1) (wordByte w 2) (wordByte w 3) = w := by
  apply BitVec.eq_of_toNat_eq
  rw [groupWord_toNat]
  simp only [wordByte_toNat]
  have := w.isLt
  omega

/-- Bit `k` of `vmask` is the flag of character `k` (R64). -/
theorem groupVmask_getLsbD (v0 v1 v2 v3 v4 : Bool) :
    (groupVmask v0 v1 v2 v3 v4).getLsbD 0 = v0 ∧ (groupVmask v0 v1 v2 v3 v4).getLsbD 1 = v1 ∧
    (groupVmask v0 v1 v2 v3 v4).getLsbD 2 = v2 ∧ (groupVmask v0 v1 v2 v3 v4).getLsbD 3 = v3 ∧
    (groupVmask v0 v1 v2 v3 v4).getLsbD 4 = v4 := by
  revert v0 v1 v2 v3 v4; decide

end Sys2Proof.Machine
end

