-- ==== Sys2Proof/Laws/State.lean ====
section
/-! SUPPORT. One lemma per field of the state and update of it, and what the shared updates of Machine/Ops.lean do to
each field, so that no later proof unfolds a record update. -/

namespace Sys2Proof.Machine

@[simp] theorem State.setIf_cfg (s : State) (x : IfState) : (s.setIf x).cfg = s.cfg := rfl
@[simp] theorem State.setIf_alphaRom (s : State) (x : IfState) : (s.setIf x).alphaRom = s.alphaRom := rfl
@[simp] theorem State.setIf_invRom (s : State) (x : IfState) : (s.setIf x).invRom = s.invRom := rfl
@[simp] theorem State.setIf_ifState (s : State) (x : IfState) : (s.setIf x).ifState = x := rfl
@[simp] theorem State.setIf_offered (s : State) (x : IfState) : (s.setIf x).offered = s.offered := rfl
@[simp] theorem State.setIf_taking (s : State) (x : IfState) : (s.setIf x).taking = s.taking := rfl
@[simp] theorem State.setIf_turns (s : State) (x : IfState) : (s.setIf x).turns = s.turns := rfl
@[simp] theorem State.setIf_delivered (s : State) (x : IfState) : (s.setIf x).delivered = s.delivered := rfl

@[simp] theorem State.setTurns_cfg (s : State) (ts : List Turn) : (s.setTurns ts).cfg = s.cfg := rfl
@[simp] theorem State.setTurns_alphaRom (s : State) (ts : List Turn) : (s.setTurns ts).alphaRom = s.alphaRom := rfl
@[simp] theorem State.setTurns_invRom (s : State) (ts : List Turn) : (s.setTurns ts).invRom = s.invRom := rfl
@[simp] theorem State.setTurns_ifState (s : State) (ts : List Turn) : (s.setTurns ts).ifState = s.ifState := rfl
@[simp] theorem State.setTurns_offered (s : State) (ts : List Turn) : (s.setTurns ts).offered = s.offered := rfl
@[simp] theorem State.setTurns_taking (s : State) (ts : List Turn) : (s.setTurns ts).taking = s.taking := rfl
@[simp] theorem State.setTurns_turns (s : State) (ts : List Turn) : (s.setTurns ts).turns = ts := rfl
@[simp] theorem State.setTurns_delivered (s : State) (ts : List Turn) : (s.setTurns ts).delivered = s.delivered := rfl

@[simp] theorem State.setOffered_cfg (s : State) (qs : List Request) : (s.setOffered qs).cfg = s.cfg := rfl
@[simp] theorem State.setOffered_alphaRom (s : State) (qs : List Request) : (s.setOffered qs).alphaRom = s.alphaRom := rfl
@[simp] theorem State.setOffered_invRom (s : State) (qs : List Request) : (s.setOffered qs).invRom = s.invRom := rfl
@[simp] theorem State.setOffered_ifState (s : State) (qs : List Request) : (s.setOffered qs).ifState = s.ifState := rfl
@[simp] theorem State.setOffered_offered (s : State) (qs : List Request) : (s.setOffered qs).offered = qs := rfl
@[simp] theorem State.setOffered_taking (s : State) (qs : List Request) : (s.setOffered qs).taking = s.taking := rfl
@[simp] theorem State.setOffered_turns (s : State) (qs : List Request) : (s.setOffered qs).turns = s.turns := rfl
@[simp] theorem State.setOffered_delivered (s : State) (qs : List Request) : (s.setOffered qs).delivered = s.delivered := rfl

@[simp] theorem State.setDelivered_cfg (s : State) (rs : List Response) : (s.setDelivered rs).cfg = s.cfg := rfl
@[simp] theorem State.setDelivered_alphaRom (s : State) (rs : List Response) : (s.setDelivered rs).alphaRom = s.alphaRom := rfl
@[simp] theorem State.setDelivered_invRom (s : State) (rs : List Response) : (s.setDelivered rs).invRom = s.invRom := rfl
@[simp] theorem State.setDelivered_ifState (s : State) (rs : List Response) : (s.setDelivered rs).ifState = s.ifState := rfl
@[simp] theorem State.setDelivered_offered (s : State) (rs : List Response) : (s.setDelivered rs).offered = s.offered := rfl
@[simp] theorem State.setDelivered_taking (s : State) (rs : List Response) : (s.setDelivered rs).taking = s.taking := rfl
@[simp] theorem State.setDelivered_turns (s : State) (rs : List Response) : (s.setDelivered rs).turns = s.turns := rfl
@[simp] theorem State.setDelivered_delivered (s : State) (rs : List Response) : (s.setDelivered rs).delivered = rs := rfl

/-- Two updates of one field: the later one counts. -/
@[simp] theorem State.setIf_setIf (s : State) (x y : IfState) : (s.setIf x).setIf y = s.setIf y := rfl
@[simp] theorem State.setTurns_setTurns (s : State) (ts us : List Turn) : (s.setTurns ts).setTurns us = s.setTurns us := rfl
/-- Writing a field's own value changes nothing. -/
@[simp] theorem State.setIf_self (s : State) : s.setIf s.ifState = s := rfl
@[simp] theorem State.setTurns_self (s : State) : s.setTurns s.turns = s := rfl

@[simp] theorem offerResponse_eq (r : Response) (s : State) : offerResponse r s = s.setIf (.done r) := rfl
@[simp] theorem resetBlock_eq (s : State) : resetBlock s = s.setIf .idle := rfl

@[simp] theorem finish_ok (r : Response) (s : State) : finish (.ok r) s = .next (s.setIf (.done r)) := rfl
@[simp] theorem finish_error (f : Fault) (s : State) : finish (.error f) s = .fault f := rfl

@[simp] theorem offeredBy_next_done (s : State) (r : Response) : offeredBy (.next (s.setIf (.done r))) = some r := rfl

/-- The response channel holds `r` exactly in `DONE(r)`. -/
theorem readResponse_eq_ok {s : State} {r : Response} : readResponse s = .ok r ↔ s.ifState = .done r := by
  unfold readResponse
  split <;> simp_all

end Sys2Proof.Machine
end

