-- ==== Sys2Proof/Laws/Memory.lean ====
section
/-! SUPPORT. What the ROM reads and the two lookups can do: in the space they always answer, and over ROMs as built they
answer what the Alphabet Table says. -/

namespace Sys2Proof.Machine

/-! ### The Alphabet Table -/

/-- Every digit has its character, and the character its digit. -/
theorem charOfDigit_spec : ∀ d < 85, mapped (charOfDigit d) = true ∧ digitOfChar (charOfDigit d) = d := by decide +kernel

theorem mapped_charOfDigit {d : Nat} (h : d < 85) : mapped (charOfDigit d) = true := (charOfDigit_spec d h).1
theorem digitOfChar_charOfDigit {d : Nat} (h : d < 85) : digitOfChar (charOfDigit d) = d := (charOfDigit_spec d h).2

/-- Every code's digit is a digit, and a mapped code is its digit's character. -/
theorem digitOfChar_spec : ∀ n < 256, digitOfChar (BitVec.ofNat 8 n) < 85 ∧
    (mapped (BitVec.ofNat 8 n) = true → charOfDigit (digitOfChar (BitVec.ofNat 8 n)) = BitVec.ofNat 8 n) := by
  decide +kernel

theorem digitOfChar_lt (c : Byte) : digitOfChar c < 85 := by
  simpa using (digitOfChar_spec c.toNat c.isLt).1

theorem charOfDigit_digitOfChar {c : Byte} (h : mapped c = true) : charOfDigit (digitOfChar c) = c := by
  simpa [h] using (digitOfChar_spec c.toNat c.isLt).2

theorem digitOfChar_unmapped {c : Byte} (h : mapped c = false) : digitOfChar c = 0 := by simp [digitOfChar, h]

/-! ### Reads -/

/-- Which addresses belong to the spaces (R28, R34). -/
theorem built_alpha_isSome (a : Nat) : (RomSpace.built .alpha a).isSome = decide (a < 85) := by
  have h : alphaTable.length = 85 := by decide
  rw [Bool.eq_iff_iff]
  simp [RomSpace.built, h]

theorem built_inv_isSome (a : Nat) : (RomSpace.built .inv a).isSome = decide (a < 95) := by
  have h : invTable.length = 95 := by decide
  rw [Bool.eq_iff_iff]
  simp [RomSpace.built, h]

/-- A read answers exactly at the addresses of the space, and its fault names the read. -/
theorem memRead_cases (space : RomSpace) (m : Memory) (a : Nat) :
    ((space.built a).isSome = true ∧ ∃ b, memRead space m a = .ok b) ∨
    ((space.built a).isSome = false ∧ memRead space m a = .error (.noSuchRomAddress space a)) := by
  unfold memRead
  cases h : space.built a with
  | none => exact .inr ⟨rfl, rfl⟩
  | some b => exact .inl ⟨rfl, _, rfl⟩

theorem alphaLookup_total (rom : Memory) {d : Digit} (h : d.toNat < 85) : ∃ b, alphaLookup rom d = .ok b := by
  rcases memRead_cases .alpha rom d.toNat with ⟨-, hb⟩ | ⟨hn, -⟩
  · exact hb
  · simp [built_alpha_isSome, h] at hn

theorem invLookup_total (rom : Memory) (c : Byte) : ∃ e, invLookup rom c = .ok e := by
  unfold invLookup
  split
  · rename_i h
    rcases memRead_cases .inv rom (c.toNat - 32) with ⟨-, hb⟩ | ⟨hn, -⟩
    · exact hb
    · simp only [built_inv_isSome, decide_eq_false_iff_not] at hn; omega
  · exact ⟨_, rfl⟩

/-- Over `ALPHA_ROM` as built, a digit's lookup is its character (R70). -/
theorem alphaLookup_built {d : Digit} (h : d.toNat < 85) : alphaLookup [] d = .ok (charOfDigit d.toNat) := by
  have hl : d.toNat < alphaTable.length := h
  simp [alphaLookup, memRead, RomSpace.built, charOfDigit, Memory.cell?, List.getD, List.getElem?_eq_getElem hl]

theorem invLookup_built_aux : ∀ n < 256, invLookup [] (BitVec.ofNat 8 n) =
    .ok (if mapped (BitVec.ofNat 8 n) then 0x80#8 + BitVec.ofNat 8 (digitOfChar (BitVec.ofNat 8 n)) else 0) := by
  decide +kernel

/-- Over `INV_ROM` as built, a code's lookup is valid and gives its digit exactly when the code is mapped (R36, R71). -/
theorem invLookup_built (c : Byte) :
    invLookup [] c = .ok (if mapped c then 0x80#8 + BitVec.ofNat 8 (digitOfChar c) else 0) := by
  simpa using invLookup_built_aux c.toNat c.isLt

theorem entry_fields_aux : ∀ d < 85, entryValid (0x80#8 + BitVec.ofNat 8 d) = true ∧
    entryDigit (0x80#8 + BitVec.ofNat 8 d) = BitVec.ofNat 7 d := by decide +kernel

theorem entryValid_built (c : Byte) :
    entryValid (if mapped c then 0x80#8 + BitVec.ofNat 8 (digitOfChar c) else 0) = mapped c := by
  cases h : mapped c
  · exact (by decide : entryValid 0 = false)
  · simpa [h] using (entry_fields_aux _ (digitOfChar_lt c)).1

theorem entryDigit_built (c : Byte) :
    entryDigit (if mapped c then 0x80#8 + BitVec.ofNat 8 (digitOfChar c) else 0) = BitVec.ofNat 7 (digitOfChar c) := by
  cases h : mapped c
  · rw [digitOfChar_unmapped h]; exact (by decide : entryDigit 0 = 0)
  · simpa [h] using (entry_fields_aux _ (digitOfChar_lt c)).2

end Sys2Proof.Machine
end

