-- ==== Sys2Proof/Laws/Units.lean ====
section
/-! SUPPORT. What the two units do: unit `z85_encoder` and `z85_decoder` always answer, and over ROMs as built their
answers are the closed forms of 41_encoder.md R75 and 42_decoder.md R83. -/

namespace Sys2Proof.Machine

theorem remainderDigit_toNat (q : Nat) : (remainderDigit q).toNat = q % 85 := by
  simp only [remainderDigit, BitVec.toNat_ofNat]
  omega

/-- The digits that come out of the divisions (R75). -/
theorem encodeDigits_toNat (w : Word) :
    (digitAt (encodeDigits w) 0).toNat = w.toNat / 85 ^ 4 % 85 ∧
    (digitAt (encodeDigits w) 1).toNat = w.toNat / 85 ^ 3 % 85 ∧
    (digitAt (encodeDigits w) 2).toNat = w.toNat / 85 ^ 2 % 85 ∧
    (digitAt (encodeDigits w) 3).toNat = w.toNat / 85 % 85 ∧
    (digitAt (encodeDigits w) 4).toNat = w.toNat % 85 := by
  simp only [encodeDigits, digitAt_packDigits_0, digitAt_packDigits_1, digitAt_packDigits_2, digitAt_packDigits_3,
    digitAt_packDigits_4, remainderDigit_toNat, Nat.div_div_eq_div_mul]
  norm_num

/-- The encoder answers every word, whatever the ROM holds: it reads no address outside the space. -/
theorem encodeGroup_total (rom : Memory) (w : Word) : ∃ c, encodeGroup rom w = .ok c := by
  obtain ⟨h0, h1, h2, h3, h4⟩ := encodeDigits_toNat w
  obtain ⟨c0, e0⟩ := alphaLookup_total rom (d := digitAt (encodeDigits w) 0) (by omega)
  obtain ⟨c1, e1⟩ := alphaLookup_total rom (d := digitAt (encodeDigits w) 1) (by omega)
  obtain ⟨c2, e2⟩ := alphaLookup_total rom (d := digitAt (encodeDigits w) 2) (by omega)
  obtain ⟨c3, e3⟩ := alphaLookup_total rom (d := digitAt (encodeDigits w) 3) (by omega)
  obtain ⟨c4, e4⟩ := alphaLookup_total rom (d := digitAt (encodeDigits w) 4) (by omega)
  exact ⟨packChars c0 c1 c2 c3 c4, by simp [encodeGroup, e0, e1, e2, e3, e4, bind, Except.bind, pure, Except.pure]⟩

/-- The encoder's answer over `ALPHA_ROM` as built. -/
theorem encodeGroup_built (w : Word) :
    encodeGroup [] w = .ok (packChars (charOfDigit (w.toNat / 85 ^ 4 % 85)) (charOfDigit (w.toNat / 85 ^ 3 % 85))
      (charOfDigit (w.toNat / 85 ^ 2 % 85)) (charOfDigit (w.toNat / 85 % 85)) (charOfDigit (w.toNat % 85))) := by
  obtain ⟨h0, h1, h2, h3, h4⟩ := encodeDigits_toNat w
  simp [encodeGroup, alphaLookup_built, h0, h1, h2, h3, h4, Nat.mod_lt, bind, Except.bind, pure, Except.pure]

/-- The decoder answers every character group, whatever the ROM holds. -/
theorem decodeGroup_total (rom : Memory) (c : CharGroup) : ∃ g, decodeGroup rom c = .ok g := by
  obtain ⟨x0, e0⟩ := invLookup_total rom (charAt c 0)
  obtain ⟨x1, e1⟩ := invLookup_total rom (charAt c 1)
  obtain ⟨x2, e2⟩ := invLookup_total rom (charAt c 2)
  obtain ⟨x3, e3⟩ := invLookup_total rom (charAt c 3)
  obtain ⟨x4, e4⟩ := invLookup_total rom (charAt c 4)
  simp [decodeGroup, e0, e1, e2, e3, e4, bind, Except.bind, pure, Except.pure]

/-- The exact value of five digits, most significant first (R83). -/
def exactOf (d0 d1 d2 d3 d4 : Nat) : Nat := d0 * 85 ^ 4 + d1 * 85 ^ 3 + d2 * 85 ^ 2 + d3 * 85 + d4

/-- The 32-bit accumulator holds the exact value modulo 2^32 (R83: each step commutes with the cut). -/
theorem horner_toNat (d0 d1 d2 d3 d4 : Digit) :
    ([d0, d1, d2, d3, d4].foldl hornerStep 0#32).toNat = exactOf d0.toNat d1.toNat d2.toNat d3.toNat d4.toNat % 2 ^ 32 := by
  simp only [List.foldl, hornerStep, exactOf, BitVec.toNat_add, BitVec.toNat_mul, BitVec.toNat_setWidth, BitVec.toNat_ofNat]
  omega

theorem exact_eq (d0 d1 d2 d3 d4 : Digit) :
    [d0, d1, d2, d3, d4].foldl exactStep 0 = exactOf d0.toNat d1.toNat d2.toNat d3.toNat d4.toNat := by
  simp only [List.foldl, exactStep, exactOf]
  omega

/-- The decoder's answer over `INV_ROM` as built (R82, R83). -/
theorem decodeGroup_built (c0 c1 c2 c3 c4 : Byte) :
    decodeGroup [] (packChars c0 c1 c2 c3 c4) =
      .ok ⟨BitVec.ofNat 32 (exactOf (digitOfChar c0) (digitOfChar c1) (digitOfChar c2) (digitOfChar c3) (digitOfChar c4)),
        groupVmask (mapped c0) (mapped c1) (mapped c2) (mapped c3) (mapped c4),
        decide (2 ^ 32 ≤ exactOf (digitOfChar c0) (digitOfChar c1) (digitOfChar c2) (digitOfChar c3) (digitOfChar c4))⟩ := by
  have hd : ∀ c, (BitVec.ofNat 7 (digitOfChar c)).toNat = digitOfChar c := fun c => by
    have := digitOfChar_lt c
    simp only [BitVec.toNat_ofNat]; omega
  have hw : [BitVec.ofNat 7 (digitOfChar c0), BitVec.ofNat 7 (digitOfChar c1), BitVec.ofNat 7 (digitOfChar c2),
      BitVec.ofNat 7 (digitOfChar c3), BitVec.ofNat 7 (digitOfChar c4)].foldl hornerStep 0#32 =
      BitVec.ofNat 32 (exactOf (digitOfChar c0) (digitOfChar c1) (digitOfChar c2) (digitOfChar c3) (digitOfChar c4)) := by
    apply BitVec.eq_of_toNat_eq
    rw [horner_toNat]
    simp only [hd]
    rw [BitVec.toNat_ofNat]
  simp only [decodeGroup, charAt_packChars_0, charAt_packChars_1, charAt_packChars_2, charAt_packChars_3,
    charAt_packChars_4, invLookup_built, bind, Except.bind, pure, Except.pure, entryDigit_built, entryValid_built,
    exact_eq, hd, hw, groupOvf]

/-- Five base-85 digits of a word give its value back (R75). -/
theorem exactOf_digits (n : Nat) (h : n < 2 ^ 32) :
    exactOf (n / 85 ^ 4 % 85) (n / 85 ^ 3 % 85) (n / 85 ^ 2 % 85) (n / 85 % 85) (n % 85) = n := by
  simp only [exactOf]
  omega

/-- An exact value's base-85 digits are the digits it was made of. -/
theorem digits_exactOf {d0 d1 d2 d3 d4 : Nat} (h0 : d0 < 85) (h1 : d1 < 85) (h2 : d2 < 85) (h3 : d3 < 85) (h4 : d4 < 85) :
    exactOf d0 d1 d2 d3 d4 / 85 ^ 4 % 85 = d0 ∧ exactOf d0 d1 d2 d3 d4 / 85 ^ 3 % 85 = d1 ∧
    exactOf d0 d1 d2 d3 d4 / 85 ^ 2 % 85 = d2 ∧ exactOf d0 d1 d2 d3 d4 / 85 % 85 = d3 ∧
    exactOf d0 d1 d2 d3 d4 % 85 = d4 := by
  simp only [exactOf]
  omega

end Sys2Proof.Machine
end

