-- ==== Sys2Proof/Laws/Codec.lean ====
section
/-! SUPPORT. What the group loops, the character check and the two operations can do. -/

namespace Sys2Proof.Machine

/-! ### The groups of a payload -/

theorem exactOf_eq_exactValue (c0 c1 c2 c3 c4 : Byte) (rest : List Byte) :
    exactOf (digitOfChar c0) (digitOfChar c1) (digitOfChar c2) (digitOfChar c3) (digitOfChar c4)
      = exactValue (c0 :: c1 :: c2 :: c3 :: c4 :: rest) 0 := by
  simp [exactOf, exactValue]

theorem groupWord_eq_bytesValue (b0 b1 b2 b3 : Byte) (rest : List Byte) :
    (groupWord b0 b1 b2 b3).toNat = bytesValue (b0 :: b1 :: b2 :: b3 :: rest) 0 := by
  simp [groupWord_toNat, bytesValue]

/-- The groups after the first are the groups of the rest (R43). -/
theorem bytesValue_succ (b0 b1 b2 b3 : Byte) (rest : List Byte) (g : Nat) :
    bytesValue (b0 :: b1 :: b2 :: b3 :: rest) (g + 1) = bytesValue rest g := by
  simp [bytesValue, Nat.mul_add]

theorem exactValue_succ (c0 c1 c2 c3 c4 : Byte) (rest : List Byte) (g : Nat) :
    exactValue (c0 :: c1 :: c2 :: c3 :: c4 :: rest) (g + 1) = exactValue rest g := by
  simp [exactValue, Nat.mul_add]

theorem someGroupOverflows_cons (c0 c1 c2 c3 c4 : Byte) (rest : List Byte) :
    someGroupOverflows (c0 :: c1 :: c2 :: c3 :: c4 :: rest) =
      (decide (2 ^ 32 ≤ exactValue (c0 :: c1 :: c2 :: c3 :: c4 :: rest) 0) || someGroupOverflows rest) := by
  have h : (c0 :: c1 :: c2 :: c3 :: c4 :: rest).length / 5 = rest.length / 5 + 1 := by
    simp only [List.length_cons]; omega
  simp only [someGroupOverflows, h, List.range_succ_eq_map, List.any_cons, List.any_map, Function.comp_def,
    exactValue_succ]

/-! ### The encoder's loop -/

theorem encodeGroups_total (rom : Memory) : ∀ p, ∃ out, encodeGroups rom p = .ok out
  | b0 :: b1 :: b2 :: b3 :: rest => by
    obtain ⟨c, hc⟩ := encodeGroup_total rom (groupWord b0 b1 b2 b3)
    obtain ⟨cs, hcs⟩ := encodeGroups_total rom rest
    exact ⟨splitChars c ++ cs, by simp [encodeGroups, hc, hcs, bind, Except.bind, pure, Except.pure]⟩
  | [] => ⟨[], rfl⟩
  | [_] => ⟨[], rfl⟩
  | [_, _] => ⟨[], rfl⟩
  | [_, _, _] => ⟨[], rfl⟩

/-- The five characters of a word (R75). -/
def charsOfValue (n : Nat) : List Byte :=
  [charOfDigit (n / 85 ^ 4 % 85), charOfDigit (n / 85 ^ 3 % 85), charOfDigit (n / 85 ^ 2 % 85), charOfDigit (n / 85 % 85),
    charOfDigit (n % 85)]

theorem charsOfValue_get (n : Nat) {k : Nat} (hk : k < 5) :
    (charsOfValue n)[k]? = some (charOfDigit (n / 85 ^ (4 - k) % 85)) := by
  match k, hk with
  | 0, _ => rfl
  | 1, _ => rfl
  | 2, _ => rfl
  | 3, _ => simp [charsOfValue]
  | 4, _ => simp [charsOfValue]

/-- One group, then the rest. -/
theorem encodeGroups_built_cons (b0 b1 b2 b3 : Byte) (rest : List Byte) :
    encodeGroups [] (b0 :: b1 :: b2 :: b3 :: rest) =
      (encodeGroups [] rest).map (charsOfValue (groupWord b0 b1 b2 b3).toNat ++ ·) := by
  simp only [encodeGroups, encodeGroup_built, bind, Except.bind, pure, Except.pure, splitChars_packChars]
  cases encodeGroups [] rest <;> rfl

/-- Over `ALPHA_ROM` as built, the output holds the characters of every group, group after group (R74, R75, R77). -/
theorem encodeGroups_built : ∀ p, ∃ out, encodeGroups [] p = .ok out ∧ out.length = p.length / 4 * 5 ∧
    ∀ g < p.length / 4, ∀ k < 5, out[5 * g + k]? = some (charOfDigit (bytesValue p g / 85 ^ (4 - k) % 85))
  | b0 :: b1 :: b2 :: b3 :: rest => by
    obtain ⟨cs, hcs, hlen, hget⟩ := encodeGroups_built rest
    have hl : (b0 :: b1 :: b2 :: b3 :: rest).length / 4 = rest.length / 4 + 1 := by
      simp only [List.length_cons]; omega
    refine ⟨charsOfValue (groupWord b0 b1 b2 b3).toNat ++ cs, by rw [encodeGroups_built_cons, hcs]; rfl, ?_, ?_⟩
    · rw [List.length_append, hlen, hl]; simp only [charsOfValue, List.length_cons, List.length_nil]; omega
    · intro g hg k hk
      have h5 : (charsOfValue (groupWord b0 b1 b2 b3).toNat).length = 5 := rfl
      cases g with
      | zero =>
        rw [Nat.mul_zero, Nat.zero_add, List.getElem?_append_left (by omega), charsOfValue_get _ hk,
          groupWord_eq_bytesValue _ _ _ _ rest]
      | succ g =>
        rw [List.getElem?_append_right (by omega), h5, show 5 * (g + 1) + k - 5 = 5 * g + k by omega,
          hget g (by omega) k hk, bytesValue_succ]
  | [] => ⟨[], rfl, by simp, fun _ hg => absurd hg (by simp)⟩
  | [_] => ⟨[], rfl, by simp, fun _ hg => absurd hg (by simp)⟩
  | [_, _] => ⟨[], rfl, by simp, fun _ hg => absurd hg (by simp)⟩
  | [_, _, _] => ⟨[], rfl, by simp, fun _ hg => absurd hg (by simp)⟩

/-- ENC's answer: the length error, or the encoded groups (R77). -/
theorem encOp_cases (rom : Memory) (p : List Byte) :
    (p.length % 4 ≠ 0 ∧ encOp rom p = .ok (raiseError (.invalidLength p.length 4#3))) ∨
    (p.length % 4 = 0 ∧ ∃ out, encodeGroups rom p = .ok out ∧ encOp rom p = .ok (respondOk out false)) := by
  unfold encOp
  split
  · exact .inl ⟨‹_›, rfl⟩
  · obtain ⟨out, h⟩ := encodeGroups_total rom p
    exact .inr ⟨by omega, out, h, by rw [h]; rfl⟩

/-! ### The decoder's loop -/

theorem decodeGroups_total (rom : Memory) : ∀ (o : Bool) (p : List Byte), ∃ x, decodeGroups rom o p = .ok x
  | o, c0 :: c1 :: c2 :: c3 :: c4 :: rest => by
    obtain ⟨g, hg⟩ := decodeGroup_total rom (packChars c0 c1 c2 c3 c4)
    obtain ⟨x, hx⟩ := decodeGroups_total rom (gatherOvf o g.govf) rest
    exact ⟨(splitWord g.w ++ x.1, x.2), by simp [decodeGroups, hg, hx, bind, Except.bind, pure, Except.pure]⟩
  | _, [] => ⟨_, rfl⟩
  | _, [_] => ⟨_, rfl⟩
  | _, [_, _] => ⟨_, rfl⟩
  | _, [_, _, _] => ⟨_, rfl⟩
  | _, [_, _, _, _] => ⟨_, rfl⟩

/-- One group, then the rest. -/
theorem decodeGroups_built_cons (o : Bool) (c0 c1 c2 c3 c4 : Byte) (rest : List Byte) :
    decodeGroups [] o (c0 :: c1 :: c2 :: c3 :: c4 :: rest) =
      (decodeGroups [] (o || decide (2 ^ 32 ≤ exactValue (c0 :: c1 :: c2 :: c3 :: c4 :: rest) 0)) rest).map
        fun x => (splitWord (BitVec.ofNat 32 (exactValue (c0 :: c1 :: c2 :: c3 :: c4 :: rest) 0)) ++ x.1, x.2) := by
  simp only [decodeGroups, decodeGroup_built, bind, Except.bind, pure, Except.pure, exactOf_eq_exactValue _ _ _ _ _ rest,
    gatherOvf]
  cases decodeGroups [] (o || decide (2 ^ 32 ≤ exactValue (c0 :: c1 :: c2 :: c3 :: c4 :: rest) 0)) rest <;> rfl

theorem splitWord_get (n : Nat) {k : Nat} (hk : k < 4) :
    (splitWord (BitVec.ofNat 32 n))[k]? = some (BitVec.ofNat 8 (n % 2 ^ 32 / 256 ^ (3 - k))) := by
  have h : ∀ j, wordByte (BitVec.ofNat 32 n) j = BitVec.ofNat 8 (n % 2 ^ 32 / 2 ^ (24 - 8 * j)) := fun j => by
    apply BitVec.eq_of_toNat_eq
    rw [wordByte_toNat, BitVec.toNat_ofNat, BitVec.toNat_ofNat]
  match k, hk with
  | 0, _ => simp [splitWord, h]
  | 1, _ => simp [splitWord, h]
  | 2, _ => simp [splitWord, h]
  | 3, _ => simp [splitWord, h]

/-- Over `INV_ROM` as built, the output holds the bytes of every group's word, group after group, and the flag tells
whether some group overflowed (R83, R85, R89). -/
theorem decodeGroups_built : ∀ (o : Bool) (p : List Byte), ∃ out,
    decodeGroups [] o p = .ok (out, o || someGroupOverflows p) ∧ out.length = p.length / 5 * 4 ∧
    ∀ g < p.length / 5, ∀ k < 4, out[4 * g + k]? = some (BitVec.ofNat 8 (exactValue p g % 2 ^ 32 / 256 ^ (3 - k)))
  | o, c0 :: c1 :: c2 :: c3 :: c4 :: rest => by
    obtain ⟨bs, hbs, hlen, hget⟩ :=
      decodeGroups_built (o || decide (2 ^ 32 ≤ exactValue (c0 :: c1 :: c2 :: c3 :: c4 :: rest) 0)) rest
    have hl : (c0 :: c1 :: c2 :: c3 :: c4 :: rest).length / 5 = rest.length / 5 + 1 := by
      simp only [List.length_cons]; omega
    refine ⟨splitWord (BitVec.ofNat 32 (exactValue (c0 :: c1 :: c2 :: c3 :: c4 :: rest) 0)) ++ bs, ?_, ?_, ?_⟩
    · rw [decodeGroups_built_cons, hbs, someGroupOverflows_cons, ← Bool.or_assoc]; rfl
    · rw [List.length_append, hlen, hl]; simp only [splitWord, List.length_cons, List.length_nil]; omega
    · intro g hg k hk
      have h4 : (splitWord (BitVec.ofNat 32 (exactValue (c0 :: c1 :: c2 :: c3 :: c4 :: rest) 0))).length = 4 := rfl
      cases g with
      | zero => rw [Nat.mul_zero, Nat.zero_add, List.getElem?_append_left (by omega), splitWord_get _ hk]
      | succ g =>
        rw [List.getElem?_append_right (by omega), h4, show 4 * (g + 1) + k - 4 = 4 * g + k by omega,
          hget g (by omega) k hk, exactValue_succ]
  | o, [] => ⟨[], by simp [decodeGroups, someGroupOverflows], by simp, fun _ hg => absurd hg (by simp)⟩
  | o, [_] => ⟨[], by simp [decodeGroups, someGroupOverflows], by simp, fun _ hg => absurd hg (by simp)⟩
  | o, [_, _] => ⟨[], by simp [decodeGroups, someGroupOverflows], by simp, fun _ hg => absurd hg (by simp)⟩
  | o, [_, _, _] => ⟨[], by simp [decodeGroups, someGroupOverflows], by simp, fun _ hg => absurd hg (by simp)⟩
  | o, [_, _, _, _] => ⟨[], by simp [decodeGroups, someGroupOverflows], by simp, fun _ hg => absurd hg (by simp)⟩

/-! ### The character check -/

theorem firstUnmapped_total (rom : Memory) : ∀ (p : List Byte) (i : Nat), ∃ x, firstUnmapped rom i p = .ok x
  | [], i => ⟨none, rfl⟩
  | c :: rest, i => by
    obtain ⟨e, he⟩ := invLookup_total rom c
    obtain ⟨x, hx⟩ := firstUnmapped_total rom rest (i + 1)
    simp only [firstUnmapped, he, bind, Except.bind, pure, Except.pure]
    split
    · exact ⟨x, hx⟩
    · exact ⟨_, rfl⟩

theorem offendingCharacter_total (policy : DecodePolicy) (rom : Memory) (p : List Byte) :
    ∃ x, offendingCharacter policy rom p = .ok x := by
  cases policy
  · exact firstUnmapped_total rom p 0
  · exact ⟨none, rfl⟩

/-- Over `INV_ROM` as built, the check steps over a mapped code and stops at an unmapped one. -/
theorem firstUnmapped_built_cons (c : Byte) (rest : List Byte) (i : Nat) :
    firstUnmapped [] i (c :: rest) = if mapped c then firstUnmapped [] (i + 1) rest else .ok (some (i, c)) := by
  simp only [firstUnmapped, invLookup_built, bind, Except.bind, entryValid_built, pure, Except.pure]

/-- The check reports nothing exactly when every code is mapped, and otherwise the lowest index of an unmapped code,
with that code (R87). -/
theorem firstUnmapped_built : ∀ (p : List Byte) (i : Nat),
    (firstUnmapped [] i p = .ok none ∧ ∀ c ∈ p, mapped c = true) ∨
    (∃ j c, firstUnmapped [] i p = .ok (some (i + j, c)) ∧ p[j]? = some c ∧ mapped c = false ∧
      ∀ k < j, ∃ d, p[k]? = some d ∧ mapped d = true)
  | [], i => .inl ⟨rfl, by simp⟩
  | c :: rest, i => by
    rw [firstUnmapped_built_cons]
    cases hc : mapped c with
    | false => exact .inr ⟨0, c, rfl, rfl, hc, by simp⟩
    | true =>
      rcases firstUnmapped_built rest (i + 1) with ⟨h, hall⟩ | ⟨j, d, h, hj, hd, hlt⟩
      · exact .inl ⟨h, by simpa [hc] using hall⟩
      · refine .inr ⟨j + 1, d, by rw [if_pos rfl, h, Nat.add_assoc, Nat.add_comm 1 j], by simpa using hj, hd, ?_⟩
        intro k hk
        cases k with
        | zero => exact ⟨c, rfl, hc⟩
        | succ k => simpa using hlt k (by omega)

/-- DEC's answer: the length error, a character error, or the decoded groups (R85). -/
theorem decOp_cases (policy : DecodePolicy) (rom : Memory) (p : List Byte) :
    (p.length % 5 ≠ 0 ∧ decOp policy rom p = .ok (raiseError (.invalidLength p.length 5#3))) ∨
    (p.length % 5 = 0 ∧ ∃ i c, offendingCharacter policy rom p = .ok (some (i, c)) ∧
      decOp policy rom p = .ok (raiseError (.invalidCharacter i c))) ∨
    (p.length % 5 = 0 ∧ offendingCharacter policy rom p = .ok none ∧
      ∃ x, decodeGroups rom false p = .ok x ∧ decOp policy rom p = .ok (respondOk x.1 x.2)) := by
  unfold decOp
  split
  · exact .inl ⟨‹_›, rfl⟩
  · obtain ⟨o, ho⟩ := offendingCharacter_total policy rom p
    obtain ⟨x, hx⟩ := decodeGroups_total rom false p
    cases o with
    | some ic => exact .inr (.inl ⟨by omega, ic.1, ic.2, ho, by rw [ho]; rfl⟩)
    | none => exact .inr (.inr ⟨by omega, ho, x, hx, by rw [ho]; simp [bind, Except.bind, hx, pure, Except.pure]⟩)

/-- Completing an operation is offering what the codec answers (R21, R22). -/
theorem exec_eq_finish_codec (i : Instr) (s : State) :
    exec i s = finish (codec s.cfg.decodePolicy s.alphaRom s.invRom i) s := by
  cases i <;> rfl

/-- The codec answers every request: no read leaves its ROM (R22, R33, R38). -/
theorem codec_total (policy : DecodePolicy) (alphaRom invRom : Memory) (i : Instr) :
    ∃ r, codec policy alphaRom invRom i = .ok r := by
  cases i with
  | enc p => rcases encOp_cases alphaRom p with ⟨-, h⟩ | ⟨-, _, -, h⟩ <;> exact ⟨_, h⟩
  | dec p => rcases decOp_cases policy invRom p with ⟨-, h⟩ | ⟨-, _, _, -, h⟩ | ⟨-, -, _, -, h⟩ <;> exact ⟨_, h⟩
  | reservedOp00 p => exact ⟨_, rfl⟩
  | reservedOp11 p => exact ⟨_, rfl⟩

end Sys2Proof.Machine
end

