-- ==== Sys2Proof/Laws/Interface.lean ====
section
/-! SUPPORT. Everything one step can do (10_state.md R21), said once: invariants and rules about steps are derived from
`step_cases` and do not unfold the step again. -/

namespace Sys2Proof.Machine

theorem decode_ok_wf {cfg : Config} {q : Request} {i : Instr} (h : decode cfg q = .ok i) : q.wf cfg := by
  unfold decode at h
  split at h
  · cases h
  · split at h
    · cases h
    · exact ⟨by omega, by simpa using ‹¬ q.p.length ≠ q.len›⟩

theorem decode_of_wf {cfg : Config} {q : Request} (h : q.wf cfg) : decode cfg q = .ok (instrOfOp q.op q.p) := by
  unfold decode
  rw [if_neg (by have := h.1; omega), if_neg (by simp [h.2])]

theorem nextTurn_nil {s : State} (h : s.turns = []) : nextTurn s = (defaultTurn s, s) := by simp [nextTurn, h]

theorem nextTurn_cons {s : State} {u : Turn} {ts : List Turn} (h : s.turns = u :: ts) :
    nextTurn s = (u, s.setTurns ts) := by simp [nextTurn, h]

/-- The default turn is taken in the state itself, a scheduled one in the state without it. -/
theorem nextTurn_cases (s : State) :
    (s.turns = [] ∧ nextTurn s = (defaultTurn s, s)) ∨
    (∃ u ts, s.turns = u :: ts ∧ nextTurn s = (u, s.setTurns ts)) := by
  cases h : s.turns with
  | nil => exact .inl ⟨rfl, nextTurn_nil h⟩
  | cons u ts => exact .inr ⟨u, ts, rfl, nextTurn_cons h⟩

/-- What a turn that goes on does: one of the four transitions of R21, or nothing because it is not enabled. -/
inductive TurnEffect (s : State) : Turn → State → Prop where
  | accept {q qs i} (hif : s.ifState = .idle) (ho : s.offered = q :: qs) (hd : decode s.cfg q = .ok i) :
      TurnEffect s .accept ((s.setIf (.busy q)).setOffered qs)
  | complete {q i r} (hif : s.ifState = .busy q) (hd : decode s.cfg q = .ok i)
      (hr : codec s.cfg.decodePolicy s.alphaRom s.invRom i = .ok r) : TurnEffect s .complete (s.setIf (.done r))
  | deliver {r} (hif : s.ifState = .done r) :
      TurnEffect s .deliver ((s.setIf .idle).setDelivered (s.delivered ++ [r]))
  | reset : TurnEffect s .reset (s.setIf .idle)
  | noOffer (hif : s.ifState = .idle) (ho : s.offered = []) : TurnEffect s .accept s
  | waits (hif : s.ifState ≠ .idle) : TurnEffect s .accept s
  | notBusy (hif : ∀ q, s.ifState ≠ .busy q) : TurnEffect s .complete s
  | notDone (hif : ∀ r, s.ifState ≠ .done r) : TurnEffect s .deliver s
  | clk : TurnEffect s .clk s

theorem acceptRequest_effect {s t : State} (h : acceptRequest s = .next t) : TurnEffect s .accept t := by
  cases hif : s.ifState with
  | idle =>
    cases ho : s.offered with
    | nil => simp [acceptRequest, accepting, hif, ho] at h; subst h; exact .noOffer hif ho
    | cons q qs =>
      cases hd : decode s.cfg q with
      | error e => simp [acceptRequest, accepting, hif, ho, hd] at h
      | ok i => simp [acceptRequest, accepting, hif, ho, hd] at h; subst h; exact .accept hif ho hd
  | busy q => simp [acceptRequest, accepting, hif] at h; subst h; exact .waits (by simp [hif])
  | done r => simp [acceptRequest, accepting, hif] at h; subst h; exact .waits (by simp [hif])

theorem completeRequest_effect {s t : State} (h : completeRequest s = .next t) : TurnEffect s .complete t := by
  cases hif : s.ifState with
  | idle => simp [completeRequest, hif] at h; subst h; exact .notBusy (by simp [hif])
  | done r => simp [completeRequest, hif] at h; subst h; exact .notBusy (by simp [hif])
  | busy q =>
    cases hd : decode s.cfg q with
    | error e => simp [completeRequest, hif, hd] at h
    | ok i =>
      obtain ⟨r, hr⟩ := codec_total s.cfg.decodePolicy s.alphaRom s.invRom i
      simp [completeRequest, hif, hd, exec_eq_finish_codec, hr] at h
      subst h
      exact .complete hif hd hr

theorem deliverResponse_effect (s : State) : TurnEffect s .deliver (deliverResponse s) := by
  cases hif : s.ifState with
  | idle => simp only [deliverResponse, readResponse, hif]; exact .notDone (by simp [hif])
  | busy q => simp only [deliverResponse, readResponse, hif]; exact .notDone (by simp [hif])
  | done r => simp only [deliverResponse, readResponse, hif]; exact .deliver hif

/-- A turn that goes on has one of these effects. -/
theorem takeTurn_effect {u : Turn} {s t : State} (h : takeTurn u s = .next t) : TurnEffect s u t := by
  cases u with
  | accept => exact acceptRequest_effect h
  | complete => exact completeRequest_effect h
  | deliver => simp only [takeTurn, Host.Outcome.next.injEq] at h; subst h; exact deliverResponse_effect s
  | reset => simp only [takeTurn, Host.Outcome.next.injEq] at h; subst h; exact .reset
  | clk => simp only [takeTurn, Host.Outcome.next.injEq] at h; subst h; exact .clk

/-- Everything a step that goes on can do. -/
theorem step_cases {s t : State} (h : step s = .next t) :
    (s.turns = [] ∧ TurnEffect s (defaultTurn s) t) ∨
    (∃ u ts, s.turns = u :: ts ∧ TurnEffect (s.setTurns ts) u t) := by
  rcases nextTurn_cases s with ⟨hn, he⟩ | ⟨u, ts, hn, he⟩
  · rw [step, he] at h; exact .inl ⟨hn, takeTurn_effect h⟩
  · rw [step, he] at h; exact .inr ⟨u, ts, hn, takeTurn_effect h⟩

/-- No turn changes the parameters or the ROMs (R14, R20, R31, R114). -/
theorem TurnEffect.constants {s t : State} {u : Turn} (h : TurnEffect s u t) :
    t.cfg = s.cfg ∧ t.alphaRom = s.alphaRom ∧ t.invRom = s.invRom := by
  cases h <;> exact ⟨rfl, rfl, rfl⟩

/-- No step changes the parameters or the ROMs, so every step keeps the canonical form of both memories. -/
theorem step_constants {s t : State} (h : step s = .next t) :
    t.cfg = s.cfg ∧ t.alphaRom = s.alphaRom ∧ t.invRom = s.invRom := by
  rcases step_cases h with ⟨-, he⟩ | ⟨u, ts, -, he⟩
  · exact he.constants
  · simpa using he.constants

theorem step_keeps_memory_wf {s t : State} (h : step s = .next t)
    (ha : Memory.wf .alpha s.alphaRom = true) (hi : Memory.wf .inv s.invRom = true) :
    Memory.wf .alpha t.alphaRom = true ∧ Memory.wf .inv t.invRom = true := by
  obtain ⟨-, e1, e2⟩ := step_constants h
  rw [e1, e2]; exact ⟨ha, hi⟩

theorem reset_memory_wf : Memory.wf .alpha State.reset.alphaRom = true ∧ Memory.wf .inv State.reset.invRom = true := by
  decide

end Sys2Proof.Machine
end

