-- ==== Sys2Proof/Laws/PerInstr.lean ====
section
/-! SUPPORT. The family `DecodesBack`: the request that carries an operation decodes to it (30_encoding.md R54, R55), for
every payload that can be expressed. -/

namespace Sys2Proof.Laws.DecodesBack

/-- The request of a well-formed operation is a request of the instance and decodes to the operation. -/
def Statement (i : Instr) : Prop := ∀ cfg : Config, i.wf cfg → (encode i).wf cfg ∧ decode cfg (encode i) = .ok i

theorem enc (p : List Byte) : Statement (.enc p) := fun cfg h =>
  ⟨⟨h, rfl⟩, by simp [decode, encode, Instr.payload, Instr.opCode, instrOfOp, Nat.not_le.mpr (show p.length < _ from h)]⟩

theorem dec (p : List Byte) : Statement (.dec p) := fun cfg h =>
  ⟨⟨h, rfl⟩, by simp [decode, encode, Instr.payload, Instr.opCode, instrOfOp, Nat.not_le.mpr (show p.length < _ from h)]⟩

theorem reservedOp00 (p : List Byte) : Statement (.reservedOp00 p) := fun cfg h =>
  ⟨⟨h, rfl⟩, by simp [decode, encode, Instr.payload, Instr.opCode, instrOfOp, Nat.not_le.mpr (show p.length < _ from h)]⟩

theorem reservedOp11 (p : List Byte) : Statement (.reservedOp11 p) := fun cfg h =>
  ⟨⟨h, rfl⟩, by simp [decode, encode, Instr.payload, Instr.opCode, instrOfOp, Nat.not_le.mpr (show p.length < _ from h)]⟩

end Sys2Proof.Laws.DecodesBack
end

