-- ==== Sys2Proof/Certificates/Slice0/Obligations.lean ====
section
/-! DEFINITION. The statements about z85_codec, for the provers. -/

open Sys2Proof Sys2Proof.Machine

/-! ### Requests and their encoding -/

/-- Whatever the parameters, the message of a well-formed operation decodes to the operation: no bit of `op`, of `len`
or of the payload is dropped (30_encoding.md R54, R55; the header form of 95_test_vectors.md section 3). -/
def Obligations.EncodedMessageDecodesToItsOperation : Prop :=
  ∀ (cfg : Config) (i : Instr), i.wf cfg →
    decodeMessage cfg (encodeMessage cfg i).1 (encodeMessage cfg i).2 = .ok i

/-- A message that decodes is the message of what it decodes to, so two different messages never mean the same
operation; and what it decodes to is well formed. -/
def Obligations.DecodedMessageIsItsOperationsEncoding : Prop :=
  ∀ (cfg : Config) (header : Nat) (payload : List Byte) (i : Instr),
    decodeMessage cfg header payload = .ok i → i.wf cfg ∧ encodeMessage cfg i = (header, payload)

/-- A message is rejected exactly when R54 does not allow it: the header has more than `LEN_W` + 2 bits, or the payload
does not have exactly `len` bytes. No value of `op` and no payload byte is rejected (R65). -/
def Obligations.MessageDecodesExactlyWhenExpressible : Prop :=
  ∀ (cfg : Config) (header : Nat) (payload : List Byte),
    (∃ i, decodeMessage cfg header payload = .ok i) ↔
      header < 2 ^ (cfg.lenW + 2) ∧ payload.length = header % 2 ^ cfg.lenW

/-- The `op` field of a request selects the operation (R55): 0b01 ENC, 0b10 DEC, and 0b00 and 0b11 reserved. -/
def Obligations.OpFieldSelectsTheOperation : Prop :=
  ∀ (cfg : Config) (q : Request), q.wf cfg →
    (q.op = 0b00#2 → decode cfg q = .ok (.reservedOp00 q.p)) ∧
    (q.op = 0b01#2 → decode cfg q = .ok (.enc q.p)) ∧
    (q.op = 0b10#2 → decode cfg q = .ok (.dec q.p)) ∧
    (q.op = 0b11#2 → decode cfg q = .ok (.reservedOp11 q.p))

/-- Messages written out by the spec for its programs (95_test_vectors.md P1, P3, P4, with `LEN_W` = 8) decode to the
requests that the spec writes beside them. -/
def Obligations.SpecsWrittenMessagesDecode : Prop :=
  decodeMessage ⟨.strict, 8⟩ 0x108 [0x86, 0x4F, 0xD2, 0x6F, 0xB5, 0x59, 0xF7, 0x5B]
    = .ok (.enc [0x86, 0x4F, 0xD2, 0x6F, 0xB5, 0x59, 0xF7, 0x5B]) ∧
  decodeMessage ⟨.strict, 8⟩ 0x205 [0x30, 0x30, 0x30, 0x30, 0x20] = .ok (.dec [0x30, 0x30, 0x30, 0x30, 0x20]) ∧
  decodeMessage ⟨.strict, 8⟩ 0x001 [0x41] = .ok (.reservedOp00 [0x41]) ∧
  decodeMessage ⟨.strict, 8⟩ 0x300 [] = .ok (.reservedOp11 [])

/-- The pseudo-requests (R68): `ENCW` is ENC of the words' bytes, most significant byte first, and `NOP` is no request. -/
def Obligations.PseudoRequestsExpand : Prop :=
  (∀ ws : List Word, Line.request (.encw ws) =
    Line.request (.enc (ws.flatMap fun w =>
      [BitVec.ofNat 8 (w.toNat / 2 ^ 24), BitVec.ofNat 8 (w.toNat / 2 ^ 16), BitVec.ofNat 8 (w.toNat / 2 ^ 8),
        BitVec.ofNat 8 w.toNat]))) ∧
  Line.request .nop = none

/-! ### The ROMs and the lookups -/

/-- The order of `ALPHA_ROM` (R29), with the codes of R12: digits 0 to 9 are '0' to '9', 10 to 35 'a' to 'z', 36 to 61
'A' to 'Z', and 62 to 84 the 23 listed signs in their order. -/
def Obligations.AlphabetRomHoldsTheEnumerationOrder : Prop :=
  ∀ (s : State) (d : Digit), s.RomsAsBuilt →
    (d.toNat ≤ 9 → alphaLookup s.alphaRom d = .ok (BitVec.ofNat 8 (0x30 + d.toNat))) ∧
    (10 ≤ d.toNat → d.toNat ≤ 35 → alphaLookup s.alphaRom d = .ok (BitVec.ofNat 8 (0x61 + (d.toNat - 10)))) ∧
    (36 ≤ d.toNat → d.toNat ≤ 61 → alphaLookup s.alphaRom d = .ok (BitVec.ofNat 8 (0x41 + (d.toNat - 36)))) ∧
    (62 ≤ d.toNat → d.toNat ≤ 84 → alphaLookup s.alphaRom d =
      .ok (([0x2E, 0x2D, 0x3A, 0x2B, 0x3D, 0x5E, 0x21, 0x2F, 0x2A, 0x3F, 0x26, 0x3C, 0x3E, 0x28, 0x29, 0x5B, 0x5D, 0x7B,
        0x7D, 0x40, 0x25, 0x24, 0x23] : List Byte).getD (d.toNat - 62) 0))

/-- Addresses 85 to 127 of the 7-bit address do not belong to `ALPHA_ROM`: a read of one at the unit's port is refused,
whatever the ROM holds, an address of the space is answered, and the encoder generates no other (R33; that no step ever
meets the refusal is `NoStepEverFaults`). -/
def Obligations.AlphabetRomRefusesOtherAddresses : Prop :=
  (∀ (rom : Memory) (d : Digit), 85 ≤ d.toNat → alphaLookup rom d = .error (.noSuchRomAddress .alpha d.toNat)) ∧
  (∀ (rom : Memory) (d : Digit), d.toNat ≤ 84 → ∃ c, alphaLookup rom d = .ok c) ∧
  ∀ (w : Word) (k : Nat), k < 5 → (digitAt (encodeDigits w) k).toNat ≤ 84

/-- `INV_ROM` inverts `ALPHA_ROM` (R36, and the first half of R40): the code of digit i has the entry 0x80 + i, and a
code of no digit has the entry 0x00. -/
def Obligations.InverseRomInvertsTheAlphabet : Prop :=
  ∀ (s : State) (c : Byte), s.RomsAsBuilt →
    (∀ d : Digit, alphaLookup s.alphaRom d = .ok c → invLookup s.invRom c = .ok (0x80#8 + d.setWidth 8)) ∧
    ((∀ d : Digit, alphaLookup s.alphaRom d ≠ .ok c) → invLookup s.invRom c = .ok 0x00#8)

/-- The second half of R40: the digit of a mapped code leads back to the code. -/
def Obligations.AlphabetRomInvertsTheInverseRom : Prop :=
  ∀ (s : State) (c e : Byte), s.RomsAsBuilt → invLookup s.invRom c = .ok e → entryValid e = true →
    alphaLookup s.alphaRom (entryDigit e) = .ok c

/-- Codes 0..31 and 127..255 are answered 0x00 without a ROM read, that is whatever the ROM holds; addresses 95 and
above of `INV_ROM` are refused, and no lookup generates one, for each is answered (R38). -/
def Obligations.OutOfRangeCodesReadNoRom : Prop :=
  (∀ (rom : Memory) (c : Byte), (c.toNat ≤ 31 ∨ 127 ≤ c.toNat) → invLookup rom c = .ok 0x00#8) ∧
  (∀ (rom : Memory) (a : Nat), 95 ≤ a → memRead .inv rom a = .error (.noSuchRomAddress .inv a)) ∧
  ∀ (rom : Memory) (c : Byte), ∃ e, invLookup rom c = .ok e

/-- The ten codes of 32..126 that are unmapped (R37), and no others. -/
def Obligations.TenCodesOfTheRangeAreUnmapped : Prop :=
  ∀ (s : State) (c : Byte), s.RomsAsBuilt → 32 ≤ c.toNat → c.toNat ≤ 126 →
    ∃ e, invLookup s.invRom c = .ok e ∧
      (entryValid e = false ↔ c ∈ ([0x20, 0x22, 0x27, 0x2C, 0x3B, 0x5C, 0x5F, 0x60, 0x7C, 0x7E] : List Byte))

/-! ### Layouts -/

/-- A byte group is one big-endian 32-bit word, and a word is split back most significant byte first (R41, R60, R62). -/
def Obligations.ByteGroupWordIsBigEndian : Prop :=
  ∀ (b0 b1 b2 b3 : Byte),
    (groupWord b0 b1 b2 b3).toNat = b0.toNat * 2 ^ 24 + b1.toNat * 2 ^ 16 + b2.toNat * 2 ^ 8 + b3.toNat ∧
    splitWord (groupWord b0 b1 b2 b3) = [b0, b1, b2, b3]

/-! ### The encoder -/

/-- The digits of `EncodeGroup(w)` in closed form (R75, which the spec derives from R74): they are the five base-85
digits of w, they give w back, each is at most 84, and the first is at most 82. -/
def Obligations.EncoderDigitsAreTheBase85Digits : Prop :=
  ∀ w : Word,
    (∀ k < 5, (digitAt (encodeDigits w) k).toNat = w.toNat / 85 ^ (4 - k) % 85) ∧
    w.toNat = (digitAt (encodeDigits w) 0).toNat * 85 ^ 4 + (digitAt (encodeDigits w) 1).toNat * 85 ^ 3
      + (digitAt (encodeDigits w) 2).toNat * 85 ^ 2 + (digitAt (encodeDigits w) 3).toNat * 85
      + (digitAt (encodeDigits w) 4).toNat ∧
    (digitAt (encodeDigits w) 0).toNat ≤ 82 ∧ ∀ k < 5, (digitAt (encodeDigits w) k).toNat ≤ 84

/-- `EncodeGroup(w)` has an answer for every word, and character k of it is the character of digit k (R74). -/
def Obligations.EncoderUnitWritesTheDigitsCharacters : Prop :=
  ∀ (s : State) (w : Word), s.RomsAsBuilt →
    ∃ c, encodeGroup s.alphaRom w = .ok c ∧ ∀ k < 5, charAt c k = charOfDigit (w.toNat / 85 ^ (4 - k) % 85)

/-- ENC (R77) of every payload whose length is a multiple of 4 completes: the response is OK with `ovf` = 0, and its
output holds, for every byte group in order, the five characters of the group's word; `out_len` is `(len div 4) * 5`. A
payload of another length is answered with INVALID_LENGTH and no output (R79). Nothing but `IFSTATE` changes. -/
def Obligations.EncTranslatesEveryByteGroup : Prop :=
  ∀ (p : List Byte) (s : State), s.RomsAsBuilt →
    (p.length % 4 = 0 → ∃ out : List Byte,
      exec (.enc p) s = .next { s with ifState := .done ⟨0b00, false, p.length / 4 * 5, out, 0, 0, 0, 0, 0⟩ } ∧
      out.length = p.length / 4 * 5 ∧
      ∀ g < p.length / 4, ∀ k < 5, out[5 * g + k]? = some (charOfDigit (bytesValue p g / 85 ^ (4 - k) % 85))) ∧
    (p.length % 4 ≠ 0 →
      exec (.enc p) s = .next { s with ifState := .done ⟨0b01, false, 0, [], p.length, 4, 0, 0, 0⟩ })

/-- Every output byte of a completed ENC is one of the 85 codes of the alphabet (R78). -/
def Obligations.EncOutputHoldsAlphabetCodesOnly : Prop :=
  ∀ (p : List Byte) (s t : State) (r : Response), s.RomsAsBuilt → exec (.enc p) s = .next t → readResponse t = .ok r →
    ∀ c ∈ r.r, mapped c = true

/-- ENC's response depends on nothing but its payload and `ALPHA_ROM`: not on `DECODE_POLICY`, `LEN_W`, `INV_ROM`, the
interface or anything outside; and offering it is ENC's only effect (R80). -/
def Obligations.EncDependsOnPayloadAndAlphabetOnly : Prop :=
  ∀ (p : List Byte) (s t : State), s.alphaRom = t.alphaRom →
    ∃ r, exec (.enc p) s = .next { s with ifState := .done r } ∧ exec (.enc p) t = .next { t with ifState := .done r }

/-- ENC is injective on payloads of one length (R81). -/
def Obligations.EncIsInjectiveOnOneLength : Prop :=
  ∀ (p p' : List Byte) (s : State), s.RomsAsBuilt → p.length = p'.length → p.length % 4 = 0 →
    offeredBy (exec (.enc p) s) = offeredBy (exec (.enc p') s) → p = p'

/-- Groups are independent (R15, R43): ENC of a concatenation of whole groups is the concatenation of the outputs. -/
def Obligations.EncOfConcatenationIsConcatenation : Prop :=
  ∀ (p p' : List Byte) (s : State), p.length % 4 = 0 → p'.length % 4 = 0 →
    ∃ out out' : List Byte, offeredBy (exec (.enc p) s) = some (respondOk out false) ∧
      offeredBy (exec (.enc p') s) = some (respondOk out' false) ∧
      offeredBy (exec (.enc (p ++ p')) s) = some (respondOk (out ++ out') false)

/-! ### The decoder -/

/-- `DecodeGroup(c)` (R82): the word is the exact value modulo 2^32, `vmask` bit k says that character k is mapped, and
`govf` says that the exact value needs more than 32 bits (R83, R84). The digit of an unmapped character is 0. -/
def Obligations.DecoderUnitGivesTheExactValueCut : Prop :=
  ∀ (s : State) (c : CharGroup), s.RomsAsBuilt →
    ∃ g, decodeGroup s.invRom c = .ok g ∧ g.w.toNat = exactValue (splitChars c) 0 % 2 ^ 32 ∧
      (g.govf = true ↔ 2 ^ 32 ≤ exactValue (splitChars c) 0) ∧
      ∀ k < 5, g.vmask.getLsbD k = mapped (charAt c k)

/-- `govf` = 1 exactly when the digit string is lexicographically greater than (82, 23, 54, 12, 0), the digits of
2^32 - 1 (R83, which the spec derives). -/
def Obligations.GroupOverflowIsLexicographic : Prop :=
  ∀ (s : State) (c : CharGroup), s.RomsAsBuilt →
    ∃ g, decodeGroup s.invRom c = .ok g ∧
      (g.govf = true ↔
        82 < digitOfChar (charAt c 0) ∨ (digitOfChar (charAt c 0) = 82 ∧
          (23 < digitOfChar (charAt c 1) ∨ (digitOfChar (charAt c 1) = 23 ∧
            (54 < digitOfChar (charAt c 2) ∨ (digitOfChar (charAt c 2) = 54 ∧
              (12 < digitOfChar (charAt c 3) ∨ (digitOfChar (charAt c 3) = 12 ∧
                0 < digitOfChar (charAt c 4)))))))))

/-- DEC (R85) of a text whose length is a multiple of 5 completes, under `LENIENT` whatever its characters, and under
`STRICT` when all of them are mapped: the response is OK; its output holds, for every character group in order, the four
bytes of the group's exact value modulo 2^32, most significant first; and `ovf` tells whether some group's exact value
exceeded 2^32 - 1 (R84, R88, R89). Nothing but `IFSTATE` changes. -/
def Obligations.DecTranslatesEveryCharacterGroup : Prop :=
  ∀ (p : List Byte) (s : State), s.RomsAsBuilt → p.length % 5 = 0 →
    (s.cfg.decodePolicy = .lenient ∨ ∀ c ∈ p, mapped c = true) →
    ∃ out : List Byte,
      exec (.dec p) s =
        .next { s with ifState := .done ⟨0b00, someGroupOverflows p, p.length / 5 * 4, out, 0, 0, 0, 0, 0⟩ } ∧
      out.length = p.length / 5 * 4 ∧
      ∀ g < p.length / 5, ∀ k < 4, out[4 * g + k]? = some (BitVec.ofNat 8 (exactValue p g % 2 ^ 32 / 256 ^ (3 - k)))

/-- Under `STRICT`, a text of a correct length with an unmapped character is answered with INVALID_CHARACTER at the
lowest index of one, with that character's code, no output, and every other field 0 (R87, R97). -/
def Obligations.StrictDecReportsTheFirstUnmappedCharacter : Prop :=
  ∀ (p : List Byte) (s : State) (i : Nat) (c : Byte), s.RomsAsBuilt → s.cfg.decodePolicy = .strict → p.length % 5 = 0 →
    p[i]? = some c → mapped c = false → (∀ j < i, ∀ d, p[j]? = some d → mapped d = true) →
    exec (.dec p) s = .next { s with ifState := .done ⟨0b10, false, 0, [], 0, 0, i, c, 0⟩ }

/-- INVALID_CHARACTER is answered to nothing else (R97: "only under"): the request is a DEC under `STRICT` of a correct
length, the recorded code stands at the recorded index, it is unmapped, and every code before it is mapped. -/
def Obligations.InvalidCharacterHasNoOtherCause : Prop :=
  ∀ (i : Instr) (s t : State) (r : Response), s.RomsAsBuilt → exec i s = .next t → readResponse t = .ok r →
    r.status = 0b10#2 →
    ∃ p, i = .dec p ∧ s.cfg.decodePolicy = .strict ∧ p.length % 5 = 0 ∧ p[r.errIndex]? = some r.errCode ∧
      mapped r.errCode = false ∧ ∀ j < r.errIndex, ∀ d, p[j]? = some d → mapped d = true

/-- Under `LENIENT` DEC never fails for a character: a text of a correct length is answered with OK. An unmapped
character counts as digit 0 and nothing in the response says so: DEC answers a text exactly as it answers the text with
'0' in the place of every unmapped character (R88). -/
def Obligations.LenientDecTakesUnmappedForZero : Prop :=
  ∀ (p : List Byte) (s : State), s.RomsAsBuilt → s.cfg.decodePolicy = .lenient →
    (p.length % 5 = 0 → ∃ r, exec (.dec p) s = .next { s with ifState := .done r } ∧ r.status = 0b00#2) ∧
    exec (.dec p) s = exec (.dec (p.map fun c => if mapped c then c else 0x30#8)) s

/-- For texts of alphabet characters the policies agree (92_eei_decisions.md D8): DEC answers the same under both. -/
def Obligations.PoliciesAgreeOnAlphabetTexts : Prop :=
  ∀ (p : List Byte) (s t : State), s.RomsAsBuilt → t.RomsAsBuilt → (∀ c ∈ p, mapped c = true) →
    offeredBy (exec (.dec p) s) = offeredBy (exec (.dec p) t)

/-- Groups are independent (R15, R43): a DEC that succeeds on two texts of whole groups gives for their concatenation
the concatenated outputs, and an overflow of either (R89). -/
def Obligations.DecOfConcatenationIsConcatenation : Prop :=
  ∀ (p p' : List Byte) (s : State), s.RomsAsBuilt → p.length % 5 = 0 → p'.length % 5 = 0 →
    (s.cfg.decodePolicy = .lenient ∨ ∀ c ∈ p ++ p', mapped c = true) →
    ∃ (out out' : List Byte) (o o' : Bool), offeredBy (exec (.dec p) s) = some (respondOk out o) ∧
      offeredBy (exec (.dec p') s) = some (respondOk out' o') ∧
      offeredBy (exec (.dec (p ++ p')) s) = some (respondOk (out ++ out') (o || o'))

/-! ### Errors -/

/-- INVALID_LENGTH (R96): the length is checked before anything else in the payload, and the response records it with
the required divisor, 4 for ENC and 5 for DEC, with no output and every other field 0. -/
def Obligations.WrongLengthIsAnsweredWithInvalidLength : Prop :=
  ∀ (p : List Byte) (s : State),
    (p.length % 4 ≠ 0 →
      exec (.enc p) s = .next { s with ifState := .done ⟨0b01, false, 0, [], p.length, 4, 0, 0, 0⟩ }) ∧
    (p.length % 5 ≠ 0 →
      exec (.dec p) s = .next { s with ifState := .done ⟨0b01, false, 0, [], p.length, 5, 0, 0, 0⟩ })

/-- ILLEGAL_OP (R98): a reserved `op` is answered so whatever the payload, with `op` recorded, no output, every other
field 0, and no other effect (R65). -/
def Obligations.ReservedOpsAreAnsweredWithIllegalOp : Prop :=
  ∀ (p : List Byte) (s : State),
    exec (.reservedOp00 p) s = .next { s with ifState := .done ⟨0b11, false, 0, [], 0, 0, 0, 0, 0b00⟩ } ∧
    exec (.reservedOp11 p) s = .next { s with ifState := .done ⟨0b11, false, 0, [], 0, 0, 0, 0, 0b11⟩ }

/-- The priority of errors (R100), for a request in `BUSY` whose completion is next: ILLEGAL_OP before INVALID_LENGTH
before INVALID_CHARACTER, and otherwise OK. That the step from `BUSY` with no turn scheduled is the completion, and that
the request is decoded there, is the model's choice (DESIGN CHOICE, notes/assumptions/4.md and 5.md). -/
def Obligations.ErrorsAreReportedByPriority : Prop :=
  ∀ (s : State) (q : Request), s.RomsAsBuilt → s.ifState = .busy q → s.turns = [] → q.wf s.cfg →
    ∃ t r, step s = .next t ∧ readResponse t = .ok r ∧
      r.status =
        if q.op = 0b00#2 ∨ q.op = 0b11#2 then 0b11#2
        else if q.len % (if q.op = 0b01#2 then 4 else 5) ≠ 0 then 0b01#2
        else if q.op = 0b10#2 ∧ s.cfg.decodePolicy = .strict ∧ (∃ c ∈ q.p, mapped c = false) then 0b10#2
        else 0b00#2

/-- Every response has the shape of its status (R58, R95): the five `err_*` fields are 0 in an OK response, and an error
response has no output, `ovf` = 0, the fields of its error, and the other `err_*` fields 0. -/
def Obligations.EveryResponseHasTheShapeOfItsStatus : Prop :=
  ∀ (i : Instr) (s t : State) (r : Response), s.RomsAsBuilt → exec i s = .next t → readResponse t = .ok r →
    r.r.length = r.outLen ∧ r.shape

/-! ### Frames and totality -/

/-- Every operation completes in every state: it offers a response and changes `IFSTATE` alone. The codec is total
(R22) and no error stops the block (R94). -/
def Obligations.EveryOperationCompletesAndChangesIfstateOnly : Prop :=
  ∀ (i : Instr) (s : State), ∃ r, exec i s = .next { s with ifState := .done r }

/-- The frame of ENC, DEC and the two reserved operations: none of them stores, so every address of both ROMs reads as
before (R11: there is no MemWrite), and the parameters, the requests waiting, the turns and the responses delivered are
unchanged. -/
def Obligations.OperationsLeaveEverythingElseUnchanged : Prop :=
  ∀ (i : Instr) (s t : State), exec i s = .next t →
    (∀ space a, memRead space t.alphaRom a = memRead space s.alphaRom a) ∧
    (∀ space a, memRead space t.invRom a = memRead space s.invRom a) ∧
    t.cfg = s.cfg ∧ t.offered = s.offered ∧ t.taking = s.taking ∧ t.turns = s.turns ∧ t.delivered = s.delivered

/-- The contents of both ROMs are constant (R31, R114): no step changes what any address of either reads as, reset
included; and no step changes the build parameters (R20). -/
def Obligations.NoStepChangesTheRoms : Prop :=
  ∀ (s t : State), step s = .next t →
    (∀ a, memRead .alpha t.alphaRom a = memRead .alpha s.alphaRom a) ∧
    (∀ a, memRead .inv t.invRom a = memRead .inv s.invRom a) ∧ t.cfg = s.cfg

/-- No step faults, from any state, whatever the ROMs hold: no operation generates an address outside a ROM (R33, R38)
and none reads the response channel while nothing is offered (R115). That a read of the response channel
there is a fault is the model's reading (DEDUCED, notes/assumptions/11.md). -/
def Obligations.NoStepEverFaults : Prop :=
  ∀ (s : State) (f : Fault), step s ≠ .fault f

/-- A block whose requester holds requests of the instance never stops: from every well-formed state the step goes on,
and the requester's side stays well formed. -/
def Obligations.StepAlwaysGoesOn : Prop :=
  ∀ s : State, s.Inv → s.OffersRequests → ∃ t, step s = .next t ∧ t.OffersRequests

/-! ### The interface automaton -/

/-- In `BUSY`, the `complete` turn executes the operation that the request held decodes to, both when it is the
scheduled turn, which it uses up, and when no turn is left. That `BUSY` is where the model fetches, and that the request
is completed when no turn is left, are the model's choices (DESIGN CHOICE, notes/assumptions/5.md and 4.md). -/
def Obligations.StepExecutesTheDecodedRequest : Prop :=
  ∀ (s : State) (q : Request) (i : Instr), s.ifState = .busy q → decode s.cfg q = .ok i →
    (s.turns = [] → step s = exec i s) ∧
    (∀ ts, s.turns = .complete :: ts → step s = exec i { s with turns := ts })

/-- The transitions of `IFSTATE` are exactly those of R21: accept from `IDLE` of the request offered, complete from
`BUSY(q)` with the codec's answer to q, deliver from `DONE(r)` of r, and reset from anywhere. A step that takes none of
them leaves `IFSTATE` as it is. R21 gives the moves of `IFSTATE`. That the requests held and the responses delivered stay
as they are at a reset is the model's reading and no rule of the spec (DEDUCED, notes/assumptions/13.md), and that they
and the scheduled turns, reset among them, stand in the state, and that a step may take no transition, are its choices
(DESIGN CHOICE, notes/assumptions/3.md and 4.md). -/
def Obligations.IfstateMovesByTheFourTransitionsOnly : Prop :=
  ∀ (s t : State), step s = .next t →
    (∃ q, s.ifState = .idle ∧ s.offered = q :: t.offered ∧ t.ifState = .busy q ∧ t.delivered = s.delivered) ∨
    (∃ q r, s.ifState = .busy q ∧ Answers s q r ∧ t.ifState = .done r ∧ t.offered = s.offered ∧
      t.delivered = s.delivered) ∨
    (∃ r, s.ifState = .done r ∧ t.ifState = .idle ∧ t.offered = s.offered ∧ t.delivered = s.delivered ++ [r]) ∨
    (s.turns.head? = some .reset ∧ t.ifState = .idle ∧ t.offered = s.offered ∧ t.delivered = s.delivered) ∨
    (t.ifState = s.ifState ∧ t.offered = s.offered ∧ t.delivered = s.delivered)

/-- `accept` (R21, R118, R119): in `IDLE` the request offered first is handed over whole and is no longer offered. That
the requests offered and the turns stand in the state, and that an offered request is accepted by default when no turn is
scheduled, are the model's choices and no rule of the spec (DESIGN CHOICE, notes/assumptions/3.md and 4.md). -/
def Obligations.IdleAcceptsTheRequestOffered : Prop :=
  ∀ (s : State) (q : Request) (qs : List Request), s.ifState = .idle → s.offered = q :: qs → q.wf s.cfg →
    (s.turns = [] → step s = .next { s with ifState := .busy q, offered := qs }) ∧
    (∀ ts, s.turns = .accept :: ts → step s = .next { s with ifState := .busy q, offered := qs, turns := ts })

/-- A request is accepted only in `IDLE` (R118): from `BUSY` and `DONE` no step takes a request off the channel, and a
turn that tries to hand one over changes nothing but the turns left. That the requests held stay as they are at a reset
is the model's reading and no rule of the spec (DEDUCED, notes/assumptions/13.md). That they and the turns stand in the
state, and that a turn which is not enabled passes and is used up, are its choices (DESIGN CHOICE, notes/assumptions/3.md
and 4.md). -/
def Obligations.RequestsWaitWhileBusyOrDone : Prop :=
  ∀ (s t : State), s.ifState ≠ .idle → step s = .next t →
    t.offered = s.offered ∧ ∀ ts, s.turns = .accept :: ts → t = { s with turns := ts }

/-- `deliver` (R21, R119): in `DONE(r)` a requester that takes the response gets r whole, after every response delivered
before, and the block is `IDLE`, after an error as after any other response (R102). That the turns, the requester's
readiness and the responses delivered stand in the state, and that the response is delivered by default when no turn is
scheduled and the requester takes responses, are the model's choices and no rule of the spec (DESIGN CHOICE,
notes/assumptions/3.md and 4.md). -/
def Obligations.DeliverHandsTheResponseOver : Prop :=
  ∀ (s : State) (r : Response), s.ifState = .done r →
    (s.turns = [] → s.taking = true →
      step s = .next { s with ifState := .idle, delivered := s.delivered ++ [r] }) ∧
    (∀ ts, s.turns = .deliver :: ts →
      step s = .next { s with ifState := .idle, delivered := s.delivered ++ [r], turns := ts })

/-- A requester that never takes the response stops the block for good, until reset (R120): however long it runs, the
same response stays offered and no request is accepted. That the requester's readiness, the requests held, the responses
delivered and the turns stand in the state, and that turns which are not enabled pass and are used up, are the model's
choices and no rule of the spec (DESIGN CHOICE, notes/assumptions/3.md and 4.md). -/
def Obligations.UntakenResponseStopsTheBlock : Prop :=
  ∀ (s : State) (r : Response) (n : Nat), s.ifState = .done r → s.taking = false →
    Turn.deliver ∉ s.turns → Turn.reset ∉ s.turns →
    ∃ t, stepN n s = .next t ∧ t.ifState = .done r ∧ t.offered = s.offered ∧ t.delivered = s.delivered

/-- Reset at any time (R112, R113, R114): `IFSTATE` becomes `IDLE`, so that an accepted request or an untaken response
is gone and nothing is delivered for it; the ROMs stay. That the requests not yet accepted, the responses delivered and
the rest of the outside world stay as they are is the model's reading and no rule of the spec (DEDUCED,
notes/assumptions/13.md), and that reset is a scheduled turn is its choice (DESIGN CHOICE, notes/assumptions/3.md). -/
def Obligations.ResetDiscardsWhatIsOutstanding : Prop :=
  ∀ (s : State) (ts : List Turn), s.turns = .reset :: ts → step s = .next { s with ifState := .idle, turns := ts }

/-- No partial result is observable and a response appears whole (R24): while no response is offered a read of the
response channel is refused, and a response that can be read after a step could be read before it, or is the codec's
whole answer to the request that was in `BUSY`. R115 says that the values are unspecified while no response is offered
and must not be read; that such a read is a fault is the model's reading (DEDUCED, notes/assumptions/11.md). -/
def Obligations.ResponseAppearsWholeAtCompletion : Prop :=
  ∀ (s t : State), step s = .next t →
    ((∀ r, t.ifState ≠ .done r) → readResponse t = .error .noResponseOffered) ∧
    ∀ r, readResponse t = .ok r → readResponse s = .ok r ∨ ∃ q, s.ifState = .busy q ∧ Answers s q r

/-- An accepted request is completed after finitely many steps, unless a reset comes first (R122), and its response is
the codec's answer to the request that was accepted, whatever happens outside meanwhile (R119, R123). That the request is
completed when no turn is scheduled is the model's form of the weak fairness (DESIGN CHOICE, notes/assumptions/4.md). -/
def Obligations.AcceptedRequestIsCompleted : Prop :=
  ∀ (s : State) (q : Request), s.ifState = .busy q → q.wf s.cfg → Turn.reset ∉ s.turns →
    ∃ n ≤ s.turns.length + 1, ∃ t r, stepN n s = .next t ∧ t.ifState = .done r ∧ Answers s q r

/-- As long as no reset is scheduled, responses come back in request order, one per request, each the codec's answer to
its request, whatever the other turns, the waiting and the other requests (R48, R69, R123): from `IDLE`, at every moment of
a run without reset, the responses delivered since are the answers to the first requests the requester held. -/
def Obligations.ResponsesComeBackInRequestOrder : Prop :=
  ∀ (s t : State) (n : Nat), s.ifState = .idle → Turn.reset ∉ s.turns → stepN n s = .next t →
    ∃ rs : List Response, t.delivered = s.delivered ++ rs ∧ rs.length ≤ s.offered.length ∧
      List.Forall₂ (Answers s) (s.offered.take rs.length) rs

/-- The end state of a program (R69): a requester that takes every response gets, three steps a request, the responses
to all its requests in order, and the block is `IDLE` with nothing else changed. Three steps a request is the model's
sequencing (DESIGN CHOICE, notes/assumptions/4.md). -/
def Obligations.ProgramEndsWithTheListOfItsResponses : Prop :=
  ∀ s : State, s.ifState = .idle → s.turns = [] → s.taking = true → s.OffersRequests →
    ∃ rs : List Response, List.Forall₂ (Answers s) s.offered rs ∧
      stepN (3 * s.offered.length) s = .next { s with offered := [], delivered := s.delivered ++ rs }

/-! ### Invariants -/

/-- The state right after reset (R25): the ROMs as R30 and R39 have them, `IDLE`, and no response offered (R115). That a
read of the response channel is a fault there is the model's reading (DEDUCED, notes/assumptions/11.md), and the empty
outside world and `LEN_W` = 8, which are not stated, are its choice (DESIGN CHOICE, notes/assumptions/3.md and 2.md). -/
def Obligations.ResetStateIsAsTheSpecSays : Prop :=
  State.reset.ifState = .idle ∧
  (∀ a b, alphaTable[a]? = some b → memRead .alpha State.reset.alphaRom a = .ok b) ∧
  (∀ a b, invTable[a]? = some b → memRead .inv State.reset.invRom a = .ok b) ∧
  readResponse State.reset = .error .noResponseOffered ∧ State.reset.cfg.decodePolicy = .strict

/-- The state after reset satisfies the invariant. -/
def Obligations.ResetSatisfiesTheInvariant : Prop := State.reset.Inv

/-- Every step keeps the invariant: legal parameters, ROMs as built (R31), a request in `BUSY` and a response in `DONE`
of the instance's widths (R54, R57: in particular `out_len` fits `LEN_W` + 1 bits, R63), each response of the shape of
its status (R58, R95), and so for every response delivered. -/
def Obligations.EveryStepKeepsTheInvariant : Prop :=
  ∀ (s t : State), s.Inv → step s = .next t → t.Inv

/-! ### Laws between ENC and DEC -/

/-- Round trip from bytes (R91): under either policy, DEC of the output of ENC succeeds with the bytes that were
encoded and `ovf` = 0. -/
def Obligations.DecodingAnEncodingGivesTheBytesBack : Prop :=
  ∀ (p : List Byte) (s : State), s.RomsAsBuilt → p.length % 4 = 0 →
    ∃ text, offeredBy (exec (.enc p) s) = some (respondOk text false) ∧
      offeredBy (exec (.dec text) s) = some (respondOk p false)

/-- Round trip from text (R92, with the premise that 90_conflicts.md C3 adds): ENC of the output of a DEC without
overflow of a text of alphabet characters gives the text. -/
def Obligations.EncodingADecodedTextGivesTheTextBack : Prop :=
  ∀ (text : List Byte) (s : State), s.RomsAsBuilt → text.length % 5 = 0 → (∀ c ∈ text, mapped c = true) →
    (∀ g < text.length / 5, exactValue text g < 2 ^ 32) →
    ∃ bytes, offeredBy (exec (.dec text) s) = some (respondOk bytes false) ∧
      offeredBy (exec (.enc bytes) s) = some (respondOk text false)

/-- DEC is not injective (R93): "00000" and "%nSc1" give the same bytes under both policies, without and with overflow,
and under `LENIENT` "0000 " gives them too. -/
def Obligations.DecIsNotInjective : Prop :=
  ∀ s : State, s.RomsAsBuilt →
    offeredBy (exec (.dec [0x30, 0x30, 0x30, 0x30, 0x30]) s) = some (respondOk [0, 0, 0, 0] false) ∧
    offeredBy (exec (.dec [0x25, 0x6E, 0x53, 0x63, 0x31]) s) = some (respondOk [0, 0, 0, 0] true) ∧
    (s.cfg.decodePolicy = .lenient →
      offeredBy (exec (.dec [0x30, 0x30, 0x30, 0x30, 0x20]) s) = some (respondOk [0, 0, 0, 0] false))

/-- The lookups as a requester can observe them (R72): DEC of "0000x" for a mapped x returns 00 00 00 d with the digit d
of x, and ENC of 00 00 00 d for d at most 84 returns "0000" and the character of digit d. -/
def Obligations.SingleLookupsAreObservable : Prop :=
  ∀ (s : State) (d : Digit), s.RomsAsBuilt → d.toNat ≤ 84 →
    ∃ x, alphaLookup s.alphaRom d = .ok x ∧
      offeredBy (exec (.enc [0, 0, 0, d.setWidth 8]) s) = some (respondOk [0x30, 0x30, 0x30, 0x30, x] false) ∧
      offeredBy (exec (.dec [0x30, 0x30, 0x30, 0x30, x]) s) = some (respondOk [0, 0, 0, d.setWidth 8] false)
end

