-- ==== Sys2Proof/Tests/Slice0.lean ====
section
/-! SUPPORT. The model's own tests: expected results are the spec's (95_test_vectors.md and the rules named), never the
model's own answers; and for every statement with hypotheses a witness that meets them. -/

namespace Sys2Proof.Tests

open Sys2Proof Sys2Proof.Machine

/-- The state after reset, with another policy and `IFSTATE`. -/
def at_ (policy : DecodePolicy) (x : IfState) : State :=
  { State.reset with cfg := ⟨policy, 8⟩, ifState := x }

/-- The codes of a text. -/
def text (t : String) : List Byte := t.toList.map charCode

/-! ### Smoke: an ill-formed term for each check of WellFormed.lean, which the check refuses -/

theorem test_wf_lenW_2_refused : ¬ Config.wf ⟨.strict, 2⟩ := by decide
theorem test_wf_len_256_refused : ¬ Request.wf ⟨.strict, 8⟩ ⟨0b01, 256, List.replicate 256 0⟩ := by decide +kernel
theorem test_wf_payload_short_refused : ¬ Request.wf ⟨.strict, 8⟩ ⟨0b01, 4, [0, 0, 0]⟩ := by decide
theorem test_wf_instr_8_bytes_refused : ¬ Instr.wf ⟨.strict, 3⟩ (.enc [0, 0, 0, 0, 0, 0, 0, 0]) := by decide

/-! ### Decoding: words written out from R54, R55 and the headers of 95_test_vectors.md -/

/-- P1 request 1: header 0x108 = 01 00001000. -/
theorem test_decode_enc : decodeMessage ⟨.strict, 8⟩ 0b0100001000 [0x86, 0x4F, 0xD2, 0x6F, 0xB5, 0x59, 0xF7, 0x5B]
    = .ok (.enc [0x86, 0x4F, 0xD2, 0x6F, 0xB5, 0x59, 0xF7, 0x5B]) := by decide
/-- P3 request 2: header 0x205 = 10 00000101. -/
theorem test_decode_dec : decodeMessage ⟨.lenient, 8⟩ 0b1000000101 [0x23, 0x23, 0x23, 0x23, 0x23]
    = .ok (.dec [0x23, 0x23, 0x23, 0x23, 0x23]) := by decide
/-- P4 request 1: header 0x001 = 00 00000001. -/
theorem test_decode_reserved00 : decodeMessage ⟨.strict, 8⟩ 0b0000000001 [0x41] = .ok (.reservedOp00 [0x41]) := by decide
/-- P4 request 2: header 0x300 = 11 00000000. -/
theorem test_decode_reserved11 : decodeMessage ⟨.strict, 8⟩ 0b1100000000 [] = .ok (.reservedOp11 []) := by decide
/-- The same header means another request when `LEN_W` is 3: 01 001. -/
theorem test_decode_lenW_3 : decodeMessage ⟨.strict, 3⟩ 0b01001 [0x41] = .ok (.enc [0x41]) := by decide
theorem test_decode_header_too_wide : decodeMessage ⟨.strict, 8⟩ 0x400 [] = .error .headerTooWide := by decide
theorem test_decode_payload_too_long : decodeMessage ⟨.strict, 8⟩ 0x101 [0, 0] = .error .payloadLengthMismatch := by decide
theorem test_decode_len_too_wide : decode ⟨.strict, 3⟩ ⟨0b10, 8, [0, 0, 0, 0, 0, 0, 0, 0]⟩ = .error .lenTooWide := by decide
/-- The table's numbering: `op` in bits 1..0; with `LEN_W` = 8, `len` = 4 in bits 9..2, then the payload 86 4F D2 6F. -/
theorem test_table_word_enc :
    decodeTableWord 48 (1 + 4 * 4 + 2 ^ 10 * (0x86 + 0x4F * 2 ^ 8 + 0xD2 * 2 ^ 16 + 0x6F * 2 ^ 24))
      = some (.enc [0x86, 0x4F, 0xD2, 0x6F]) := by decide +kernel
theorem test_table_words : decodeTableWord 8 1 = some (.enc []) ∧ decodeTableWord 8 2 = some (.dec []) ∧
    decodeTableWord 8 0 = some (.reservedOp00 []) ∧ decodeTableWord 8 3 = some (.reservedOp11 []) := by decide
/-- R66: 2 + `LEN_W` bits of header and `len` bytes of payload. -/
theorem test_size_bits : Request.sizeBits ⟨.strict, 8⟩ ⟨0b10, 5, text "Hello"⟩ = 50 := by decide

/-! ### Tables and units: 95_test_vectors.md 2.1 to 2.4 -/

theorem test_alpha_43 : alphaLookup [] 43#7 = .ok 0x48#8 := by decide
theorem test_alpha_85_refused : alphaLookup [] 85#7 = .error (.noSuchRomAddress .alpha 85) := by decide
theorem test_inv_H : invLookup [] 0x48#8 = .ok 0xAB#8 ∧ invLookup [] 0x20#8 = .ok 0x00#8 ∧ invLookup [] 0xB0#8 = .ok 0x00#8 := by
  decide
theorem test_encodeGroup_80000000 : (encodeGroup [] 0x80000000#32).map splitChars = .ok (text "Fb/MH") := by decide
theorem test_decodeGroup_max : decodeGroup [] (packChars 0x23 0x23 0x23 0x23 0x23) = .ok ⟨0x08780EC4#32, 0b11111#5, true⟩ := by
  decide
theorem test_decodeGroup_unmapped : decodeGroup [] (packChars 0x48 0x65 0x22 0x6C 0x6F) = .ok ⟨0x864D81C2#32, 0b11011#5, false⟩ := by
  decide

/-! ### The operations: 95_test_vectors.md 1, 2.5 to 2.7 -/

theorem test_enc_HelloWorld : offeredBy (exec (.enc [0x86, 0x4F, 0xD2, 0x6F, 0xB5, 0x59, 0xF7, 0x5B]) State.reset)
    = some ⟨0b00, false, 10, text "HelloWorld", 0, 0, 0, 0, 0⟩ := by decide
theorem test_enc_seven_bytes : offeredBy (exec (.enc [0x86, 0x4F, 0xD2, 0x6F, 0xB5, 0x59, 0xF7]) State.reset)
    = some ⟨0b01, false, 0, [], 7, 4, 0, 0, 0⟩ := by decide
theorem test_dec_overflow : offeredBy (exec (.dec (text "00000%nSc1")) State.reset)
    = some ⟨0b00, true, 8, [0, 0, 0, 0, 0, 0, 0, 0], 0, 0, 0, 0, 0⟩ := by decide
/-- `DEC "Hello Worl"` under both policies. -/
theorem test_dec_policies :
    offeredBy (exec (.dec (text "Hello Worl")) (at_ .strict .idle)) = some ⟨0b10, false, 0, [], 0, 0, 5, 0x20, 0⟩ ∧
    offeredBy (exec (.dec (text "Hello Worl")) (at_ .lenient .idle))
      = some ⟨0b00, false, 8, [0x86, 0x4F, 0xD2, 0x6F, 0x02, 0x22, 0x30, 0x16], 0, 0, 0, 0, 0⟩ := by decide
theorem test_reserved00 : offeredBy (exec (.reservedOp00 [0x41]) State.reset) = some ⟨0b11, false, 0, [], 0, 0, 0, 0, 0b00⟩ := by
  decide
theorem test_reserved11 : offeredBy (exec (.reservedOp11 [0x86, 0x4F, 0xD2, 0x6F]) State.reset)
    = some ⟨0b11, false, 0, [], 0, 0, 0, 0, 0b11⟩ := by decide

/-! ### The interface: 95_test_vectors.md 2.8, and the notation of R67, R68 -/

theorem test_accept : step (State.reset.withProgram [⟨0b01, 4, [0x86, 0x4F, 0xD2, 0x6F]⟩])
    = .next (at_ .strict (.busy ⟨0b01, 4, [0x86, 0x4F, 0xD2, 0x6F]⟩)) := rfl
theorem test_complete : step (at_ .strict (.busy ⟨0b01, 4, [0x86, 0x4F, 0xD2, 0x6F]⟩))
    = .next (at_ .strict (.done (respondOk (text "Hello") false))) := rfl
theorem test_deliver : step (at_ .strict (.done (respondOk [0] false)))
    = .next { at_ .strict .idle with delivered := [respondOk [0] false] } := rfl
theorem test_reset_in_busy : step { at_ .strict (.busy ⟨0b01, 0, []⟩) with turns := [.reset, .clk] }
    = .next { at_ .strict .idle with turns := [.clk] } := rfl
theorem test_second_request_waits : step { at_ .strict (.busy ⟨0b01, 0, []⟩) with turns := [.accept], offered := [⟨0b10, 0, []⟩] }
    = .next { at_ .strict (.busy ⟨0b01, 0, []⟩) with offered := [⟨0b10, 0, []⟩] } := rfl
/-- A record that is no request of the instance is refused by name (93_implementation_defined.md I10). -/
theorem test_inexpressible_refused : step (State.reset.withProgram [⟨0b01, 4, []⟩])
    = .refused (.inexpressibleRequest .payloadLengthMismatch) := rfl
/-- `withFetchWord` puts a word where the next step runs it. -/
theorem test_fetch_reserved11 : step (State.reset.withFetchWord 8 3) = .next (at_ .strict (.done (raiseError (.illegalOp 0b11)))) := rfl
/-- R68: `ENCW 0x864FD26F` is `ENC 86 4F D2 6F`; `NOP` is skipped. -/
theorem test_assemble : assemble [.encw [0x864FD26F], .nop, .decText ['H', 'e', 'l', 'l', 'o'], .req 0b11 [0x41]]
    = [⟨0b01, 4, [0x86, 0x4F, 0xD2, 0x6F]⟩, ⟨0b10, 5, text "Hello"⟩, ⟨0b11, 1, [0x41]⟩] := by decide
theorem test_responseLine : responseLine 0b10 (raiseError (.invalidCharacter 4 0x20)) = .errInvalidCharacter 4 0x20 ∧
    responseLine 0b10 (respondOk [8] true) = .okBytes [8] true := by decide

/-! ### Witnesses: for each statement a state and operands that meet all its hypotheses together -/

theorem reset_built : State.reset.RomsAsBuilt := ⟨rfl, rfl⟩
theorem lenient_built : (at_ .lenient .idle).RomsAsBuilt := ⟨rfl, rfl⟩

/-- The longest payload for `LEN_W` = 3, and the empty one. -/
theorem witness_EncodedMessageDecodesToItsOperation :
    Instr.wf ⟨.strict, 3⟩ (.enc [0, 0, 0, 0, 0, 0, 0]) ∧ Instr.wf ⟨.strict, 3⟩ (.reservedOp11 []) := by decide
theorem witness_DecodedMessageIsItsOperationsEncoding : decodeMessage ⟨.strict, 3⟩ 0b10111 [0, 0, 0, 0, 0, 0, 0]
    = .ok (.dec [0, 0, 0, 0, 0, 0, 0]) := by decide
/-- One request for each clause, with `len` 0 and with `len` = `MAX_LEN`. -/
theorem witness_OpFieldSelectsTheOperation : ∀ op ∈ ([0b00, 0b01, 0b10, 0b11] : List Op),
    Request.wf ⟨.strict, 3⟩ ⟨op, 0, []⟩ ∧ Request.wf ⟨.strict, 3⟩ ⟨op, 7, [0, 0, 0, 0, 0, 0, 0]⟩ := by decide
/-- Both ends of the four ranges. -/
theorem witness_AlphabetRomHoldsTheEnumerationOrder : State.reset.RomsAsBuilt ∧
    (0#7).toNat ≤ 9 ∧ (9#7).toNat ≤ 9 ∧ (10 ≤ (10#7).toNat ∧ (10#7).toNat ≤ 35) ∧ (10 ≤ (35#7).toNat ∧ (35#7).toNat ≤ 35) ∧
    (36 ≤ (36#7).toNat ∧ (36#7).toNat ≤ 61) ∧ (36 ≤ (61#7).toNat ∧ (61#7).toNat ≤ 61) ∧
    (62 ≤ (62#7).toNat ∧ (62#7).toNat ≤ 84) ∧ (62 ≤ (84#7).toNat ∧ (84#7).toNat ≤ 84) := ⟨reset_built, by decide⟩
theorem witness_AlphabetRomRefusesOtherAddresses : 85 ≤ (85#7).toNat ∧ 85 ≤ (127#7).toNat ∧ (0#7).toNat ≤ 84 ∧
    (84#7).toNat ≤ 84 ∧ (4 : Nat) < 5 := by decide
/-- The last digit's code for the first clause, and the space, which no digit has, for the second. -/
theorem witness_InverseRomInvertsTheAlphabet : State.reset.RomsAsBuilt ∧
    alphaLookup State.reset.alphaRom 84#7 = .ok 0x23#8 ∧
    ∀ d : Digit, alphaLookup State.reset.alphaRom d ≠ .ok 0x20#8 :=
  ⟨reset_built, by decide, by
    have h : ∀ n < 128, alphaLookup State.reset.alphaRom (BitVec.ofNat 7 n) ≠ .ok 0x20#8 := by decide +kernel
    intro d; simpa using h d.toNat d.isLt⟩
theorem witness_AlphabetRomInvertsTheInverseRom : State.reset.RomsAsBuilt ∧
    invLookup State.reset.invRom 0x30#8 = .ok 0x80#8 ∧ entryValid 0x80#8 = true := ⟨reset_built, by decide⟩
theorem witness_OutOfRangeCodesReadNoRom : ((31#8).toNat ≤ 31 ∨ 127 ≤ (31#8).toNat) ∧
    ((127#8).toNat ≤ 31 ∨ 127 ≤ (127#8).toNat) ∧ 95 ≤ 95 := by decide
theorem witness_TenCodesOfTheRangeAreUnmapped : State.reset.RomsAsBuilt ∧
    (32 ≤ (32#8).toNat ∧ (32#8).toNat ≤ 126) ∧ (32 ≤ (126#8).toNat ∧ (126#8).toNat ≤ 126) := ⟨reset_built, by decide⟩
/-- `EncoderUnitWritesTheDigitsCharacters`, `DecoderUnitGivesTheExactValueCut`, `GroupOverflowIsLexicographic` and
`DecIsNotInjective` suppose this alone; the last clause of `DecIsNotInjective` supposes `LENIENT` besides. -/
theorem witness_RomsAsBuilt : State.reset.RomsAsBuilt ∧ (at_ .lenient .idle).RomsAsBuilt ∧
    (at_ .lenient .idle).cfg.decodePolicy = .lenient := ⟨reset_built, lenient_built, rfl⟩
/-- The empty payload, and one of two groups with the last character of the last group; and a length beside 4. -/
theorem witness_EncTranslatesEveryByteGroup : State.reset.RomsAsBuilt ∧ ([] : List Byte).length % 4 = 0 ∧
    [0, 0, 0, 0, 0, 0, 0, 0xFF#8].length % 4 = 0 ∧ 1 < [0, 0, 0, 0, 0, 0, 0, 0xFF#8].length / 4 ∧ (4 : Nat) < 5 ∧
    [0, 0, 0, 0, 0#8].length % 4 ≠ 0 :=
  ⟨reset_built, by decide⟩
theorem witness_EncOutputHoldsAlphabetCodesOnly : State.reset.RomsAsBuilt ∧
    exec (.enc [0, 0, 0, 84]) State.reset = .next (at_ .strict (.done (respondOk (text "0000#") false))) ∧
    readResponse (at_ .strict (.done (respondOk (text "0000#") false))) = .ok (respondOk (text "0000#") false) :=
  ⟨reset_built, rfl, rfl⟩
theorem witness_EncDependsOnPayloadAndAlphabetOnly : State.reset.alphaRom = (at_ .lenient (.busy ⟨0b10, 0, []⟩)).alphaRom := rfl
theorem witness_EncIsInjectiveOnOneLength : State.reset.RomsAsBuilt ∧ [1, 2, 3, 4#8].length = [1, 2, 3, 4#8].length ∧
    [1, 2, 3, 4#8].length % 4 = 0 ∧
    offeredBy (exec (.enc [1, 2, 3, 4]) State.reset) = offeredBy (exec (.enc [1, 2, 3, 4]) State.reset) :=
  ⟨reset_built, rfl, rfl, rfl⟩
theorem witness_EncOfConcatenationIsConcatenation : [1, 2, 3, 4#8].length % 4 = 0 ∧ ([] : List Byte).length % 4 = 0 := by decide
/-- Both ways to meet the last hypothesis: `LENIENT` with an unmapped character, `STRICT` with mapped ones only. -/
theorem witness_DecTranslatesEveryCharacterGroup :
    ((at_ .lenient .idle).RomsAsBuilt ∧ (text "0000 ").length % 5 = 0 ∧ (at_ .lenient .idle).cfg.decodePolicy = .lenient) ∧
    (State.reset.RomsAsBuilt ∧ (text "#####").length % 5 = 0 ∧ ∀ c ∈ text "#####", mapped c = true) ∧
    0 < (text "#####").length / 5 ∧ (3 : Nat) < 4 :=
  ⟨⟨lenient_built, by decide, rfl⟩, ⟨reset_built, by decide, by decide⟩, by decide⟩
/-- The last index of the text, with mapped characters before it. -/
theorem witness_StrictDecReportsTheFirstUnmappedCharacter : State.reset.RomsAsBuilt ∧
    State.reset.cfg.decodePolicy = .strict ∧ (text "0000 ").length % 5 = 0 ∧ (text "0000 ")[4]? = some 0x20#8 ∧
    mapped 0x20#8 = false ∧ ∀ j < 4, ∀ d, (text "0000 ")[j]? = some d → mapped d = true :=
  ⟨reset_built, rfl, by decide, by decide, by decide, by
    have h : ∀ j < 4, (text "0000 ")[j]? = some 0x30#8 := by decide
    intro j hj d hd; rw [h j hj] at hd; cases hd; decide⟩
theorem witness_InvalidCharacterHasNoOtherCause : State.reset.RomsAsBuilt ∧
    exec (.dec (text "0000 ")) State.reset = .next (at_ .strict (.done (raiseError (.invalidCharacter 4 0x20)))) ∧
    readResponse (at_ .strict (.done (raiseError (.invalidCharacter 4 0x20)))) = .ok (raiseError (.invalidCharacter 4 0x20)) ∧
    (raiseError (.invalidCharacter 4 0x20)).status = 0b10#2 := ⟨reset_built, rfl, rfl, rfl⟩
theorem witness_LenientDecTakesUnmappedForZero : (at_ .lenient .idle).RomsAsBuilt ∧
    (at_ .lenient .idle).cfg.decodePolicy = .lenient ∧ (text "0000 ").length % 5 = 0 := ⟨lenient_built, rfl, by decide⟩
theorem witness_PoliciesAgreeOnAlphabetTexts : State.reset.RomsAsBuilt ∧ (at_ .lenient .idle).RomsAsBuilt ∧
    ∀ c ∈ text "Hello", mapped c = true := ⟨reset_built, lenient_built, by decide⟩
theorem witness_DecOfConcatenationIsConcatenation : State.reset.RomsAsBuilt ∧ (text "Hello").length % 5 = 0 ∧
    (text "%nSc1").length % 5 = 0 ∧ (State.reset.cfg.decodePolicy = .lenient ∨ ∀ c ∈ text "Hello" ++ text "%nSc1", mapped c = true) ∧
    (at_ .lenient .idle).RomsAsBuilt ∧
    ((at_ .lenient .idle).cfg.decodePolicy = .lenient ∨ ∀ c ∈ text "Hello" ++ text "%nSc1", mapped c = true) :=
  ⟨reset_built, by decide, by decide, .inr (by decide), lenient_built, .inl rfl⟩
/-- For ENC the lengths beside 4, and for DEC those beside 5. -/
theorem witness_WrongLengthIsAnsweredWithInvalidLength : [0, 0, 0#8].length % 4 ≠ 0 ∧ [0, 0, 0, 0, 0#8].length % 4 ≠ 0 ∧
    [0, 0, 0, 0#8].length % 5 ≠ 0 ∧ [0, 0, 0, 0, 0, 0#8].length % 5 ≠ 0 := by decide
/-- A request for each branch: a reserved `op` with a wrong length; a DEC of a wrong length with spaces; a DEC with
spaces; a DEC without. -/
theorem witness_ErrorsAreReportedByPriority : ∀ q ∈ ([⟨0b00, 1, [0x41]⟩, ⟨0b10, 6, text "0 0 0 "⟩,
      ⟨0b10, 10, text "0 0 0 0 0 "⟩, ⟨0b10, 5, text "00000"⟩] : List Request),
    (at_ .strict (.busy q)).RomsAsBuilt ∧ (at_ .strict (.busy q)).ifState = .busy q ∧ (at_ .strict (.busy q)).turns = [] ∧
      q.wf (at_ .strict (.busy q)).cfg := by
  intro q hq
  exact ⟨⟨rfl, rfl⟩, rfl, rfl, (by decide : ∀ q ∈ ([⟨0b00, 1, [0x41]⟩, ⟨0b10, 6, text "0 0 0 "⟩,
      ⟨0b10, 10, text "0 0 0 0 0 "⟩, ⟨0b10, 5, text "00000"⟩] : List Request), q.wf ⟨.strict, 8⟩) q hq⟩
/-- This also meets the hypotheses of `OperationsLeaveEverythingElseUnchanged`. -/
theorem witness_EveryResponseHasTheShapeOfItsStatus : State.reset.RomsAsBuilt ∧
    exec (.enc [0]) State.reset = .next (at_ .strict (.done (raiseError (.invalidLength 1 4)))) ∧
    readResponse (at_ .strict (.done (raiseError (.invalidLength 1 4)))) = .ok (raiseError (.invalidLength 1 4)) :=
  ⟨reset_built, rfl, rfl⟩
/-- A step that completes; it meets the hypotheses of `NoStepChangesTheRoms`, `IfstateMovesByTheFourTransitionsOnly` and
`ResponseAppearsWholeAtCompletion`. -/
theorem witness_step_completes : step (at_ .lenient (.busy ⟨0b10, 0, []⟩)) = .next (at_ .lenient (.done (respondOk [] false))) ∧
    readResponse (at_ .lenient (.done (respondOk [] false))) = .ok (respondOk [] false) := ⟨rfl, rfl⟩
/-- A step after which no response is offered, for the first clause of `ResponseAppearsWholeAtCompletion`. -/
theorem witness_step_offers_nothing : step State.reset = .next State.reset ∧ ∀ r, State.reset.ifState ≠ .done r :=
  ⟨rfl, fun r h => by cases h⟩
/-- A well-formed state in `BUSY`, with a further request waiting; this meets the hypotheses of
`EveryStepKeepsTheInvariant` too. -/
theorem witness_StepAlwaysGoesOn :
    State.Inv { at_ .strict (.busy ⟨0b01, 0, []⟩) with offered := [⟨0b10, 0, []⟩] } ∧
    State.OffersRequests { at_ .strict (.busy ⟨0b01, 0, []⟩) with offered := [⟨0b10, 0, []⟩] } ∧
    ∃ t, step { at_ .strict (.busy ⟨0b01, 0, []⟩) with offered := [⟨0b10, 0, []⟩] } = .next t :=
  ⟨⟨by decide, ⟨rfl, rfl⟩, (by decide : Request.wf ⟨.strict, 8⟩ ⟨0b01, 0, []⟩), by intro r hr; cases hr⟩,
    by intro q hq; rw [List.mem_singleton.mp hq]; exact (by decide : Request.wf ⟨.strict, 8⟩ ⟨0b10, 0, []⟩), _, rfl⟩
/-- No turn left, and the `complete` turn scheduled. -/
theorem witness_StepExecutesTheDecodedRequest : (at_ .strict (.busy ⟨0b01, 0, []⟩)).ifState = .busy ⟨0b01, 0, []⟩ ∧
    decode (at_ .strict (.busy ⟨0b01, 0, []⟩)).cfg ⟨0b01, 0, []⟩ = .ok (.enc []) ∧
    (at_ .strict (.busy ⟨0b01, 0, []⟩)).turns = [] ∧
    ({ at_ .strict (.busy ⟨0b01, 0, []⟩) with turns := [.complete, .clk] } : State).turns = .complete :: [.clk] :=
  ⟨rfl, rfl, rfl, rfl⟩
theorem witness_IdleAcceptsTheRequestOffered : (State.reset.withProgram [⟨0b11, 0, []⟩]).ifState = .idle ∧
    (State.reset.withProgram [⟨0b11, 0, []⟩]).offered = ⟨0b11, 0, []⟩ :: [] ∧
    Request.wf (State.reset.withProgram [⟨0b11, 0, []⟩]).cfg ⟨0b11, 0, []⟩ ∧
    (State.reset.withProgram [⟨0b11, 0, []⟩]).turns = [] ∧
    ({ State.reset.withProgram [⟨0b11, 0, []⟩] with turns := [.accept] } : State).turns = .accept :: [] :=
  ⟨rfl, rfl, by decide, rfl, rfl⟩
/-- `BUSY` and `DONE`, each with a turn that tries to hand a request over. -/
theorem witness_RequestsWaitWhileBusyOrDone :
    (at_ .strict (.busy ⟨0b01, 0, []⟩)).ifState ≠ .idle ∧ (at_ .strict (.done (respondOk [] false))).ifState ≠ .idle ∧
    step { at_ .strict (.done (respondOk [] false)) with turns := [.accept], offered := [⟨0b01, 0, []⟩] }
      = .next { at_ .strict (.done (respondOk [] false)) with offered := [⟨0b01, 0, []⟩] } :=
  ⟨by decide, by decide, rfl⟩
theorem witness_DeliverHandsTheResponseOver : (at_ .strict (.done (respondOk [] false))).ifState = .done (respondOk [] false) ∧
    (at_ .strict (.done (respondOk [] false))).turns = [] ∧ (at_ .strict (.done (respondOk [] false))).taking = true ∧
    ({ at_ .strict (.done (respondOk [] false)) with turns := [.deliver] } : State).turns = .deliver :: [] := ⟨rfl, rfl, rfl, rfl⟩
theorem witness_UntakenResponseStopsTheBlock :
    ({ at_ .strict (.done (respondOk [] false)) with taking := false, turns := [.accept, .complete, .clk] } : State).ifState
      = .done (respondOk [] false) ∧
    ({ at_ .strict (.done (respondOk [] false)) with taking := false, turns := [.accept, .complete, .clk] } : State).taking = false ∧
    Turn.deliver ∉ [Turn.accept, .complete, .clk] ∧ Turn.reset ∉ [Turn.accept, .complete, .clk] := ⟨rfl, rfl, by decide, by decide⟩
theorem witness_ResetDiscardsWhatIsOutstanding :
    ({ at_ .strict (.busy ⟨0b01, 0, []⟩) with turns := [.reset] } : State).turns = .reset :: [] := rfl
/-- With no turn left, and with time passing before the completion. -/
theorem witness_AcceptedRequestIsCompleted : (at_ .strict (.busy ⟨0b10, 5, text "Hello"⟩)).ifState = .busy ⟨0b10, 5, text "Hello"⟩ ∧
    Request.wf (at_ .strict (.busy ⟨0b10, 5, text "Hello"⟩)).cfg ⟨0b10, 5, text "Hello"⟩ ∧
    Turn.reset ∉ (at_ .strict (.busy ⟨0b10, 5, text "Hello"⟩)).turns ∧ Turn.reset ∉ [Turn.clk, .accept, .deliver] := by
  refine ⟨rfl, by decide, by decide, by decide⟩
theorem witness_ResponsesComeBackInRequestOrder : State.reset.ifState = .idle ∧ Turn.reset ∉ State.reset.turns ∧
    stepN 3 (State.reset.withProgram [⟨0b11, 0, []⟩]) = .next { State.reset with delivered := [raiseError (.illegalOp 0b11)] } ∧
    (State.reset.withProgram [⟨0b11, 0, []⟩]).ifState = .idle ∧ Turn.reset ∉ (State.reset.withProgram [⟨0b11, 0, []⟩]).turns :=
  ⟨rfl, by decide, rfl, rfl, by decide⟩
theorem witness_ProgramEndsWithTheListOfItsResponses : (State.reset.withProgram [⟨0b11, 0, []⟩, ⟨0b01, 0, []⟩]).ifState = .idle ∧
    (State.reset.withProgram [⟨0b11, 0, []⟩, ⟨0b01, 0, []⟩]).turns = [] ∧
    (State.reset.withProgram [⟨0b11, 0, []⟩, ⟨0b01, 0, []⟩]).taking = true ∧
    (State.reset.withProgram [⟨0b11, 0, []⟩, ⟨0b01, 0, []⟩]).OffersRequests :=
  ⟨rfl, rfl, rfl, (by decide : ∀ q ∈ ([⟨0b11, 0, []⟩, ⟨0b01, 0, []⟩] : List Request), q.wf ⟨.strict, 8⟩)⟩
theorem witness_ResetStateIsAsTheSpecSays : alphaTable[84]? = some 0x23#8 ∧ invTable[94]? = some 0x00#8 := by decide
theorem witness_DecodingAnEncodingGivesTheBytesBack : (at_ .lenient .idle).RomsAsBuilt ∧ [0xFF, 0xFF, 0xFF, 0xFF#8].length % 4 = 0 :=
  ⟨lenient_built, rfl⟩
/-- The largest group that fits. -/
theorem witness_EncodingADecodedTextGivesTheTextBack : State.reset.RomsAsBuilt ∧ (text "%nSc0").length % 5 = 0 ∧
    (∀ c ∈ text "%nSc0", mapped c = true) ∧ ∀ g < (text "%nSc0").length / 5, exactValue (text "%nSc0") g < 2 ^ 32 :=
  ⟨reset_built, by decide, by decide, by decide⟩
theorem witness_SingleLookupsAreObservable : State.reset.RomsAsBuilt ∧ (0#7).toNat ≤ 84 ∧ (84#7).toNat ≤ 84 :=
  ⟨reset_built, by decide⟩

end Sys2Proof.Tests
end

section
/-! What executing an operation can do, said once (10_state.md R21, R22), and its frame. -/

namespace Sys2Proof.Machine

/-- Executing an operation always completes: it offers the codec's answer (R21, R22, R94). -/
theorem exec_completes (i : Instr) (s : State) :
    ∃ r, codec s.cfg.decodePolicy s.alphaRom s.invRom i = .ok r ∧ exec i s = .next (s.setIf (.done r)) := by
  obtain ⟨r, hr⟩ := codec_total s.cfg.decodePolicy s.alphaRom s.invRom i
  exact ⟨r, hr, by rw [exec_eq_finish_codec, hr, finish_ok]⟩

/-- The inversion rule of `exec`: a next state differs from the state before in `IFSTATE` alone. -/
theorem exec_next_eq_setIf_done {i : Instr} {s t : State} (h : exec i s = .next t) :
    ∃ r, codec s.cfg.decodePolicy s.alphaRom s.invRom i = .ok r ∧ t = s.setIf (.done r) := by
  obtain ⟨r, hr, he⟩ := exec_completes i s
  rw [he, Host.Outcome.next.injEq] at h
  exact ⟨r, hr, h.symm⟩

/-- Settles O34: the next state is the state before with another `IFSTATE`, so every other field is the same. -/
theorem operationsLeaveEverythingElseUnchanged : Obligations.OperationsLeaveEverythingElseUnchanged := by
  intro i s t h
  obtain ⟨r, -, rfl⟩ := exec_next_eq_setIf_done h
  simp

end Sys2Proof.Machine
end

section
/-! What one turn and one step do: a rule for each enabled transition of R21, that a turn always goes on while the
interface carries expressible requests only, and what every step does to `IFSTATE` and the two channels. -/

namespace Sys2Proof.Machine

/-! ### The turn of a step -/

theorem step_of_no_turn {s : State} (h : s.turns = []) : step s = takeTurn (defaultTurn s) s := by
  rw [step, nextTurn_nil h]

theorem step_of_turn {s : State} {u : Turn} {ts : List Turn} (h : s.turns = u :: ts) :
    step s = takeTurn u (s.setTurns ts) := by
  rw [step, nextTurn_cons h]

theorem defaultTurn_idle {s : State} (h : s.ifState = .idle) : defaultTurn s = .accept := by simp [defaultTurn, h]

theorem defaultTurn_busy {s : State} {q : Request} (h : s.ifState = .busy q) : defaultTurn s = .complete := by
  simp [defaultTurn, h]

theorem defaultTurn_done {s : State} {r : Response} (h : s.ifState = .done r) (ht : s.taking = true) :
    defaultTurn s = .deliver := by
  simp [defaultTurn, h, ht]

/-- Reset never happens by default: it is the outside world's turn (R112). -/
theorem defaultTurn_ne_reset (s : State) : defaultTurn s ≠ .reset := by
  unfold defaultTurn
  split
  · simp
  · simp
  · split <;> simp

/-! ### The enabled transitions -/

theorem acceptRequest_offered {s : State} {q : Request} {qs : List Request} (hif : s.ifState = .idle)
    (ho : s.offered = q :: qs) (hq : q.wf s.cfg) : acceptRequest s = .next ((s.setIf (.busy q)).setOffered qs) := by
  simp [acceptRequest, accepting, hif, ho, decode_of_wf hq]

theorem completeRequest_busy {s : State} {q : Request} {i : Instr} (hif : s.ifState = .busy q)
    (hd : decode s.cfg q = .ok i) : completeRequest s = exec i s := by
  simp [completeRequest, hif, hd]

theorem deliverResponse_done {s : State} {r : Response} (hif : s.ifState = .done r) :
    deliverResponse s = (s.setIf .idle).setDelivered (s.delivered ++ [r]) := by
  simp [deliverResponse, readResponse_eq_ok.mpr hif]

/-- While no response is offered a read of the response channel is refused (R115). -/
theorem readResponse_of_not_done {s : State} (h : ∀ r, s.ifState ≠ .done r) :
    readResponse s = .error .noResponseOffered := by
  cases hif : s.ifState with
  | idle => simp [readResponse, hif]
  | busy q => simp [readResponse, hif]
  | done r => exact absurd hif (h r)

/-! ### Progress -/

theorem acceptRequest_total {s : State} (ho : s.OffersRequests) : ∃ t, acceptRequest s = .next t := by
  cases hif : s.ifState with
  | busy q => exact ⟨s, by simp [acceptRequest, accepting, hif]⟩
  | done r => exact ⟨s, by simp [acceptRequest, accepting, hif]⟩
  | idle =>
    cases hoff : s.offered with
    | nil => exact ⟨s, by simp [acceptRequest, accepting, hif, hoff]⟩
    | cons q qs => exact ⟨_, acceptRequest_offered hif hoff (ho q (by simp [hoff]))⟩

theorem completeRequest_total {s : State} (hw : s.ifState.wf s.cfg) : ∃ t, completeRequest s = .next t := by
  cases hif : s.ifState with
  | idle => exact ⟨s, by simp [completeRequest, hif]⟩
  | done r => exact ⟨s, by simp [completeRequest, hif]⟩
  | busy q =>
    have hq : q.wf s.cfg := by rw [hif] at hw; exact hw
    obtain ⟨r, -, he⟩ := exec_completes (instrOfOp q.op q.p) s
    exact ⟨_, (completeRequest_busy hif (decode_of_wf hq)).trans he⟩

/-- Only an inexpressible record could stop a turn (R54): one offered, or one held in `BUSY`. -/
theorem takeTurn_total {s : State} (u : Turn) (hw : s.ifState.wf s.cfg) (ho : s.OffersRequests) :
    ∃ t, takeTurn u s = .next t := by
  cases u with
  | accept => exact acceptRequest_total ho
  | complete => exact completeRequest_total hw
  | deliver => exact ⟨_, rfl⟩
  | reset => exact ⟨_, rfl⟩
  | clk => exact ⟨_, rfl⟩

theorem step_total {s : State} (hw : s.ifState.wf s.cfg) (ho : s.OffersRequests) : ∃ t, step s = .next t := by
  rcases nextTurn_cases s with ⟨-, he⟩ | ⟨u, ts, -, he⟩
  · rw [step, he]; exact takeTurn_total _ hw ho
  · rw [step, he]; exact takeTurn_total (s := s.setTurns ts) u hw ho

/-- The requests held after a turn are held before it: a turn takes at most the first one away. -/
theorem TurnEffect.offered_subset {s t : State} {u : Turn} (h : TurnEffect s u t) : t.offered ⊆ s.offered := by
  cases h with
  | accept _ ho _ => rw [ho]; exact List.subset_cons_self _ _
  | _ => exact List.Subset.refl _

theorem step_offered_subset {s t : State} (h : step s = .next t) : t.offered ⊆ s.offered := by
  rcases step_cases h with ⟨-, he⟩ | ⟨u, ts, -, he⟩
  · exact he.offered_subset
  · exact he.offered_subset

theorem step_keeps_offersRequests {s t : State} (h : step s = .next t) (ho : s.OffersRequests) : t.OffersRequests := by
  intro q hq
  rw [(step_constants h).1]
  exact ho q (step_offered_subset h hq)

/-! ### The moves of `IFSTATE` -/

/-- A turn moves `IFSTATE` and the two channels by one of the four transitions of R21, or leaves them alone. -/
theorem TurnEffect.moves {s t : State} {u : Turn} (h : TurnEffect s u t) :
    (∃ q, s.ifState = .idle ∧ s.offered = q :: t.offered ∧ t.ifState = .busy q ∧ t.delivered = s.delivered) ∨
    (∃ q r, s.ifState = .busy q ∧ Answers s q r ∧ t.ifState = .done r ∧ t.offered = s.offered ∧
      t.delivered = s.delivered) ∨
    (∃ r, s.ifState = .done r ∧ t.ifState = .idle ∧ t.offered = s.offered ∧ t.delivered = s.delivered ++ [r]) ∨
    (u = .reset ∧ t.ifState = .idle ∧ t.offered = s.offered ∧ t.delivered = s.delivered) ∨
    (t.ifState = s.ifState ∧ t.offered = s.offered ∧ t.delivered = s.delivered) := by
  cases h with
  | accept hif ho _ => exact .inl ⟨_, hif, ho, rfl, rfl⟩
  | complete hif hd hr => exact .inr (.inl ⟨_, _, hif, ⟨_, hd, hr⟩, rfl, rfl, rfl⟩)
  | deliver hif => exact .inr (.inr (.inl ⟨_, hif, rfl, rfl, rfl⟩))
  | reset => exact .inr (.inr (.inr (.inl ⟨rfl, rfl, rfl, rfl⟩)))
  | _ => exact .inr (.inr (.inr (.inr ⟨rfl, rfl, rfl⟩)))

end Sys2Proof.Machine
end

section
/-! What ROMs as built read as, and the group loops over a concatenation: groups are independent (R15, R43), and over
`INV_ROM` as built the character check lets the texts through that the policy accepts. -/

namespace Sys2Proof.Machine

/-- A ROM that lists no differing cell reads as what it is built with (R31). -/
theorem memRead_nil {space : RomSpace} {a : Nat} {b : Byte} (h : space.built a = some b) :
    memRead space [] a = .ok b := by
  simp [memRead, h, Memory.cell?]

/-- What an operation offers is what the codec answers. -/
theorem offeredBy_exec {i : Instr} {s : State} {r : Response}
    (h : codec s.cfg.decodePolicy s.alphaRom s.invRom i = .ok r) : offeredBy (exec i s) = some r := by
  rw [exec_eq_finish_codec, h, finish_ok, offeredBy_next_done]

/-! ### Byte groups -/

theorem encodeGroups_cons {rom : Memory} {b0 b1 b2 b3 : Byte} {rest cs : List Byte} {c : CharGroup}
    (hc : encodeGroup rom (groupWord b0 b1 b2 b3) = .ok c) (hcs : encodeGroups rom rest = .ok cs) :
    encodeGroups rom (b0 :: b1 :: b2 :: b3 :: rest) = .ok (splitChars c ++ cs) := by
  simp [encodeGroups, hc, hcs, bind, Except.bind, pure, Except.pure]

/-- The output for whole byte groups followed by more is the output for the groups, then the output for the rest. -/
theorem encodeGroups_append {rom : Memory} {p' out' : List Byte} (h' : encodeGroups rom p' = .ok out') :
    ∀ p : List Byte, p.length % 4 = 0 →
      ∃ out, encodeGroups rom p = .ok out ∧ encodeGroups rom (p ++ p') = .ok (out ++ out')
  | b0 :: b1 :: b2 :: b3 :: rest, hl => by
    obtain ⟨c, hc⟩ := encodeGroup_total rom (groupWord b0 b1 b2 b3)
    obtain ⟨cs, hcs, happ⟩ := encodeGroups_append h' rest (by simp only [List.length_cons] at hl; omega)
    exact ⟨_, encodeGroups_cons hc hcs, by rw [List.append_assoc]; exact encodeGroups_cons hc happ⟩
  | [], _ => ⟨[], rfl, h'⟩
  | [_], hl | [_, _], hl | [_, _, _], hl => by simp at hl

theorem encOp_of_groups {rom : Memory} {p out : List Byte} (hl : p.length % 4 = 0)
    (h : encodeGroups rom p = .ok out) : encOp rom p = .ok (respondOk out false) := by
  rcases encOp_cases rom p with ⟨hne, -⟩ | ⟨-, out₁, h₁, he⟩
  · exact absurd hl hne
  · cases h.symm.trans h₁; exact he

/-! ### Character groups -/

theorem decodeGroups_cons {rom : Memory} {o : Bool} {c0 c1 c2 c3 c4 : Byte} {rest : List Byte} {g : DecodedGroup}
    {x : List Byte × Bool} (hg : decodeGroup rom (packChars c0 c1 c2 c3 c4) = .ok g)
    (hx : decodeGroups rom (o || g.govf) rest = .ok x) :
    decodeGroups rom o (c0 :: c1 :: c2 :: c3 :: c4 :: rest) = .ok (splitWord g.w ++ x.1, x.2) := by
  simp [decodeGroups, hg, gatherOvf, hx, bind, Except.bind, pure, Except.pure]

/-- The decoder's loop answers every payload, and the flag it starts from only joins the overflows it gathers (R89). -/
theorem decodeGroups_flag (rom : Memory) : ∀ p : List Byte, ∃ out f, ∀ o, decodeGroups rom o p = .ok (out, o || f)
  | c0 :: c1 :: c2 :: c3 :: c4 :: rest => by
    obtain ⟨g, hg⟩ := decodeGroup_total rom (packChars c0 c1 c2 c3 c4)
    obtain ⟨bs, f, hbs⟩ := decodeGroups_flag rom rest
    refine ⟨splitWord g.w ++ bs, g.govf || f, fun o => ?_⟩
    rw [← Bool.or_assoc]
    exact decodeGroups_cons hg (hbs _)
  | [] | [_] | [_, _] | [_, _, _] | [_, _, _, _] => ⟨[], false, fun o => by simp [decodeGroups]⟩

/-- The output for whole character groups followed by more is the output for the groups, then the output for the rest,
and the flag gathers the overflows of both (R89). -/
theorem decodeGroups_append {rom : Memory} {p' out' : List Byte} {o' : Bool}
    (h' : ∀ o, decodeGroups rom o p' = .ok (out', o || o')) :
    ∀ p : List Byte, p.length % 5 = 0 → ∃ out f, ∀ o, decodeGroups rom o p = .ok (out, o || f) ∧
      decodeGroups rom o (p ++ p') = .ok (out ++ out', o || (f || o'))
  | c0 :: c1 :: c2 :: c3 :: c4 :: rest, hl => by
    obtain ⟨g, hg⟩ := decodeGroup_total rom (packChars c0 c1 c2 c3 c4)
    obtain ⟨bs, f, hbs⟩ := decodeGroups_append h' rest (by simp only [List.length_cons] at hl; omega)
    refine ⟨splitWord g.w ++ bs, g.govf || f, fun o => ?_⟩
    obtain ⟨hrest, happ⟩ := hbs (o || g.govf)
    rw [List.append_assoc, Bool.or_assoc g.govf, ← Bool.or_assoc o, ← Bool.or_assoc o]
    exact ⟨decodeGroups_cons hg hrest, decodeGroups_cons hg happ⟩
  | [], _ => ⟨[], false, fun o => ⟨by simp [decodeGroups], h' o⟩⟩
  | [_], hl | [_, _], hl | [_, _, _], hl | [_, _, _, _], hl => by simp at hl

/-- The check finds nothing in a text that the policy accepts: every text under `LENIENT`, and a text of alphabet
characters under `STRICT` (R87, R88). -/
theorem offendingCharacter_built_none {policy : DecodePolicy} {p : List Byte}
    (h : policy = .lenient ∨ ∀ c ∈ p, mapped c = true) : offendingCharacter policy [] p = .ok none := by
  cases policy with
  | lenient => rfl
  | strict =>
    have hall : ∀ c ∈ p, mapped c = true := h.resolve_left (by simp)
    rcases firstUnmapped_built p 0 with ⟨hn, -⟩ | ⟨j, c, -, hj, hc, -⟩
    · exact hn
    · simp [hall c (List.mem_of_getElem? hj)] at hc

theorem decOp_of_groups {policy : DecodePolicy} {rom : Memory} {p out : List Byte} {o : Bool} (hl : p.length % 5 = 0)
    (hp : offendingCharacter policy rom p = .ok none) (h : decodeGroups rom false p = .ok (out, o)) :
    decOp policy rom p = .ok (respondOk out o) := by
  rcases decOp_cases policy rom p with ⟨hne, -⟩ | ⟨-, i, c, hs, -⟩ | ⟨-, -, x, hx, he⟩
  · exact absurd hl hne
  · cases hp.symm.trans hs
  · cases h.symm.trans hx; exact he

end Sys2Proof.Machine
end

section
/-! The statements about the state and its transitions (10_state.md), settled. -/

namespace Sys2Proof.Machine

/-- Settles O37: no record that the interface carries is refused, and a step only ever takes requests away. -/
theorem stepAlwaysGoesOn : Obligations.StepAlwaysGoesOn := by
  intro s hinv ho
  obtain ⟨t, ht⟩ := step_total hinv.ifState ho
  exact ⟨t, ht, step_keeps_offersRequests ht ho⟩

/-- Settles O20, by the encoder's loop over a concatenation. -/
theorem encOfConcatenationIsConcatenation : Obligations.EncOfConcatenationIsConcatenation := by
  intro p p' s hl hl'
  obtain ⟨out', h'⟩ := encodeGroups_total s.alphaRom p'
  obtain ⟨out, h, happ⟩ := encodeGroups_append h' p hl
  have hlapp : (p ++ p').length % 4 = 0 := by rw [List.length_append]; omega
  exact ⟨out, out', offeredBy_exec (encOp_of_groups hl h), offeredBy_exec (encOp_of_groups hl' h'),
    offeredBy_exec (encOp_of_groups hlapp happ)⟩

/-- Settles O28, by the decoder's loop over a concatenation; the policy that accepts the whole text accepts its parts. -/
theorem decOfConcatenationIsConcatenation : Obligations.DecOfConcatenationIsConcatenation := by
  rintro p p' s ⟨-, hrom⟩ hl hl' hpol
  obtain ⟨out', o', h'⟩ := decodeGroups_flag s.invRom p'
  obtain ⟨out, o, h⟩ := decodeGroups_append h' p hl
  obtain ⟨hp, happ⟩ := h false
  have hp' := h' false
  rw [Bool.false_or] at hp hp' happ
  have hlapp : (p ++ p').length % 5 = 0 := by rw [List.length_append]; omega
  have haccepts : ∀ text ⊆ p ++ p', offendingCharacter s.cfg.decodePolicy s.invRom text = .ok none := by
    intro text hsub
    rw [hrom]
    exact offendingCharacter_built_none (hpol.imp_right fun hall c hc => hall c (hsub hc))
  exact ⟨out, out', o, o',
    offeredBy_exec (decOp_of_groups hl (haccepts p (List.subset_append_left p p')) hp),
    offeredBy_exec (decOp_of_groups hl' (haccepts p' (List.subset_append_right p p')) hp'),
    offeredBy_exec (decOp_of_groups hlapp (haccepts _ (List.Subset.refl _)) happ)⟩

/-- Settles O33: executing an operation offers the codec's answer and changes nothing else. -/
theorem everyOperationCompletesAndChangesIfstateOnly : Obligations.EveryOperationCompletesAndChangesIfstateOnly := by
  intro i s
  obtain ⟨r, -, he⟩ := exec_completes i s
  exact ⟨r, he⟩

/-- Settles O39: the turn a step takes makes one of the moves, and a reset is never the default turn. -/
theorem ifstateMovesByTheFourTransitionsOnly : Obligations.IfstateMovesByTheFourTransitionsOnly := by
  intro s t h
  rcases step_cases h with ⟨-, he⟩ | ⟨u, ts, hts, he⟩
  · exact he.moves.imp_right <| .imp_right <| .imp_right <| .imp_left fun ⟨hu, _⟩ =>
      absurd hu (defaultTurn_ne_reset s)
  · exact he.moves.imp_right <| .imp_right <| .imp_right <| .imp_left fun ⟨hu, hrest⟩ =>
      ⟨by rw [hts, hu]; rfl, hrest⟩

/-- Settles O45: of the moves of `IFSTATE`, only the completion of the request in `BUSY` brings a new response. -/
theorem responseAppearsWholeAtCompletion : Obligations.ResponseAppearsWholeAtCompletion := by
  intro s t h
  refine ⟨readResponse_of_not_done, fun r hr => ?_⟩
  rw [readResponse_eq_ok] at hr ⊢
  rcases ifstateMovesByTheFourTransitionsOnly s t h with
    ⟨q, -, -, ht, -⟩ | ⟨q, r₁, hif, hans, ht, -⟩ | ⟨r₁, -, ht, -⟩ | ⟨-, ht, -⟩ | ⟨ht, -⟩
  · cases ht.symm.trans hr
  · cases ht.symm.trans hr
    exact .inr ⟨q, hif, hans⟩
  · cases ht.symm.trans hr
  · cases ht.symm.trans hr
  · exact .inl (ht.symm.trans hr)

/-- Settles O38: in `BUSY` the default turn is `complete`, and it executes what the request decodes to. -/
theorem stepExecutesTheDecodedRequest : Obligations.StepExecutesTheDecodedRequest := by
  intro s q i hif hd
  constructor
  · intro hts
    rw [step_of_no_turn hts, defaultTurn_busy hif]
    exact completeRequest_busy hif hd
  · intro ts hts
    rw [step_of_turn hts]
    exact completeRequest_busy (s := s.setTurns ts) hif hd

/-- Settles O40: in `IDLE` the default turn is `accept`. -/
theorem idleAcceptsTheRequestOffered : Obligations.IdleAcceptsTheRequestOffered := by
  intro s q qs hif ho hq
  constructor
  · intro hts
    rw [step_of_no_turn hts, defaultTurn_idle hif]
    exact acceptRequest_offered hif ho hq
  · intro ts hts
    rw [step_of_turn hts]
    exact acceptRequest_offered (s := s.setTurns ts) hif ho hq

/-- Settles O42: in `DONE` the default turn of a requester that takes responses is `deliver`. -/
theorem deliverHandsTheResponseOver : Obligations.DeliverHandsTheResponseOver := by
  intro s r hif
  constructor
  · intro hts htaking
    rw [step_of_no_turn hts, defaultTurn_done hif htaking]
    exact congrArg Host.Outcome.next (deliverResponse_done hif)
  · intro ts hts
    rw [step_of_turn hts]
    exact congrArg Host.Outcome.next (deliverResponse_done (s := s.setTurns ts) hif)

/-- Settles O49: a ROM without a differing cell reads as its table, and nothing is offered in `IDLE`. -/
theorem resetStateIsAsTheSpecSays : Obligations.ResetStateIsAsTheSpecSays := by
  have halpha : ∀ a b, alphaTable[a]? = some b → memRead .alpha State.reset.alphaRom a = .ok b :=
    fun _ _ h => memRead_nil h
  have hinv : ∀ a b, invTable[a]? = some b → memRead .inv State.reset.invRom a = .ok b :=
    fun _ _ h => memRead_nil h
  exact ⟨rfl, halpha, hinv, readResponse_of_not_done (by simp [State.reset]), rfl⟩

/-- Settles O50: `LEN_W` = 8 is legal, the ROMs hold no differing cell, and nothing is held in `IDLE` or delivered. -/
theorem resetSatisfiesTheInvariant : Obligations.ResetSatisfiesTheInvariant where
  cfg := by decide
  roms := ⟨rfl, rfl⟩
  ifState := trivial
  delivered := by simp [State.reset]

end Sys2Proof.Machine
end

section
/-! The two lookups outside their spaces and over ROMs as built (20_memory.md R29, R33, R37, R38, R40). -/

namespace Sys2Proof.Machine

/-! ### Addresses outside the spaces -/

/-- A read at an address that does not belong to the space is refused, and the fault names it. -/
theorem memRead_outside {space : RomSpace} {a : Nat} (rom : Memory) (h : (space.built a).isSome = false) :
    memRead space rom a = .error (.noSuchRomAddress space a) := by
  rcases memRead_cases space rom a with ⟨hs, -⟩ | ⟨-, he⟩
  · simp [h] at hs
  · exact he

theorem alphaLookup_outside (rom : Memory) {d : Digit} (h : 85 ≤ d.toNat) :
    alphaLookup rom d = .error (.noSuchRomAddress .alpha d.toNat) :=
  memRead_outside rom (by rw [built_alpha_isSome, decide_eq_false_iff_not]; omega)

theorem invLookup_outside (rom : Memory) {c : Byte} (h : c.toNat ≤ 31 ∨ 127 ≤ c.toNat) :
    invLookup rom c = .ok 0x00#8 :=
  if_neg (by omega)

/-- The encoder's digits are addresses of `ALPHA_ROM` (R33). -/
theorem encodeDigits_le (w : Word) {k : Nat} (hk : k < 5) : (digitAt (encodeDigits w) k).toNat ≤ 84 := by
  obtain ⟨h0, h1, h2, h3, h4⟩ := encodeDigits_toNat w
  match k, hk with
  | 0, _ | 1, _ | 2, _ | 3, _ | 4, _ => omega

/-! ### The enumeration order of the Alphabet Table (R29) -/

theorem charOfDigit_numeral : ∀ k < 10, charOfDigit k = BitVec.ofNat 8 (0x30 + k) := by decide
theorem charOfDigit_lowercase : ∀ k < 26, charOfDigit (10 + k) = BitVec.ofNat 8 (0x61 + k) := by decide
theorem charOfDigit_uppercase : ∀ k < 26, charOfDigit (36 + k) = BitVec.ofNat 8 (0x41 + k) := by decide

/-- From digit 62 up the Alphabet Table lists the signs. -/
theorem charOfDigit_sign (k : Nat) : charOfDigit (62 + k) = (alphaTable.drop 62).getD k 0 := by
  simp [charOfDigit, List.getD]

/-! ### The two tables invert each other (R36, R40) -/

/-- Over `ALPHA_ROM` as built, a lookup gives a code exactly when the code is mapped and the digit is its digit. -/
theorem alphaLookup_built_eq_ok {d : Digit} {c : Byte} :
    alphaLookup [] d = .ok c ↔ mapped c = true ∧ d = BitVec.ofNat 7 (digitOfChar c) := by
  constructor
  · intro h
    by_cases hd : d.toNat < 85
    · rw [alphaLookup_built hd, Except.ok.injEq] at h
      subst h
      exact ⟨mapped_charOfDigit hd, by rw [digitOfChar_charOfDigit hd, BitVec.ofNat_toNat, BitVec.setWidth_eq]⟩
    · rw [alphaLookup_outside [] (by omega)] at h
      cases h
  · rintro ⟨hc, rfl⟩
    have hlt : digitOfChar c < 85 := digitOfChar_lt c
    have hnat : (BitVec.ofNat 7 (digitOfChar c)).toNat = digitOfChar c := by rw [BitVec.toNat_ofNat]; omega
    rw [alphaLookup_built (by omega), hnat, charOfDigit_digitOfChar hc]

/-- A digit on 7 bits, extended to the width of an entry. -/
theorem setWidth_digitOfChar (c : Byte) :
    (BitVec.ofNat 7 (digitOfChar c)).setWidth 8 = BitVec.ofNat 8 (digitOfChar c) := by
  have hlt : digitOfChar c < 85 := digitOfChar_lt c
  apply BitVec.eq_of_toNat_eq
  simp only [BitVec.toNat_setWidth, BitVec.toNat_ofNat]
  omega

/-- The unmapped codes of 32..126 (R37). -/
theorem mapped_eq_false_of_range : ∀ n < 95, (mapped (BitVec.ofNat 8 (32 + n)) = false ↔
    BitVec.ofNat 8 (32 + n) ∈ ([0x20, 0x22, 0x27, 0x2C, 0x3B, 0x5C, 0x5F, 0x60, 0x7C, 0x7E] : List Byte)) := by
  decide

end Sys2Proof.Machine
end

section
/-! Every response of the codec, over ROMs as built, has the widths and the shape that `Response.wf` asks for
(30_encoding.md R57, R58, R63), and every step keeps the invariant. -/

namespace Sys2Proof.Machine

/-! ### The forms of a response -/

/-- An OK response is well formed when its output fits. -/
theorem respondOk_wf {cfg : Config} {out : List Byte} {ovf : Bool} (h : out.length < 2 ^ (cfg.lenW + 1)) :
    (respondOk out ovf).wf cfg :=
  ⟨rfl, h, Nat.two_pow_pos _, Nat.two_pow_pos _, .inl ⟨rfl, rfl, rfl, rfl, rfl, rfl⟩⟩

theorem invalidLength_wf {cfg : Config} {len : Nat} {div : BitVec 3} (hlen : len < 2 ^ cfg.lenW)
    (hdiv : div = 4 ∨ div = 5) (hmod : len % div.toNat ≠ 0) : (raiseError (.invalidLength len div)).wf cfg :=
  ⟨rfl, Nat.two_pow_pos _, hlen, Nat.two_pow_pos _, .inr (.inl ⟨rfl, rfl, rfl, hdiv, hmod, rfl, rfl, rfl⟩)⟩

theorem invalidCharacter_wf {cfg : Config} {index : Nat} {code : Byte} (hindex : index < 2 ^ cfg.lenW)
    (hcode : mapped code = false) : (raiseError (.invalidCharacter index code)).wf cfg :=
  ⟨rfl, Nat.two_pow_pos _, Nat.two_pow_pos _, hindex, .inr (.inr (.inl ⟨rfl, rfl, rfl, hcode, rfl, rfl, rfl⟩))⟩

theorem illegalOp_wf {cfg : Config} {op : Op} (hop : op = 0b00 ∨ op = 0b11) : (raiseError (.illegalOp op)).wf cfg :=
  ⟨rfl, Nat.two_pow_pos _, Nat.two_pow_pos _, Nat.two_pow_pos _,
    .inr (.inr (.inr ⟨rfl, rfl, rfl, hop, rfl, rfl, rfl, rfl⟩))⟩

/-! ### The answers of the operations -/

/-- ENC writes five characters for four bytes, so its output fits `LEN_W` + 1 bits (R63). -/
theorem encOp_built_wf {cfg : Config} {p : List Byte} {r : Response} (hp : p.length < 2 ^ cfg.lenW)
    (hr : encOp [] p = .ok r) : r.wf cfg := by
  rcases encOp_cases [] p with ⟨hne, he⟩ | ⟨-, out, hout, he⟩
  · cases he.symm.trans hr
    exact invalidLength_wf hp (.inl rfl) hne
  · cases he.symm.trans hr
    obtain ⟨out₁, hout₁, hlen, -⟩ := encodeGroups_built p
    cases hout.symm.trans hout₁
    exact respondOk_wf (by rw [Nat.pow_succ]; omega)

/-- What the check reports lies in the text and is unmapped, under either policy (R87, R88). -/
theorem offendingCharacter_built_some {policy : DecodePolicy} {p : List Byte} {i : Nat} {c : Byte}
    (h : offendingCharacter policy [] p = .ok (some (i, c))) : p[i]? = some c ∧ mapped c = false := by
  cases policy with
  | lenient => cases h
  | strict =>
    rcases firstUnmapped_built p 0 with ⟨hn, -⟩ | ⟨j, d, hs, hj, hd, -⟩
    · cases hn.symm.trans h
    · cases hs.symm.trans h
      exact ⟨by rwa [Nat.zero_add], hd⟩

/-- DEC reports an unmapped character at an index below `len`, or writes four bytes for five characters. -/
theorem decOp_built_wf {cfg : Config} {policy : DecodePolicy} {p : List Byte} {r : Response}
    (hp : p.length < 2 ^ cfg.lenW) (hr : decOp policy [] p = .ok r) : r.wf cfg := by
  rcases decOp_cases policy [] p with ⟨hne, he⟩ | ⟨-, i, c, hbad, he⟩ | ⟨-, -, x, hx, he⟩
  · cases he.symm.trans hr
    exact invalidLength_wf hp (.inr rfl) hne
  · cases he.symm.trans hr
    obtain ⟨hi, hc⟩ := offendingCharacter_built_some hbad
    obtain ⟨hlt, -⟩ := List.getElem?_eq_some_iff.mp hi
    exact invalidCharacter_wf (hlt.trans hp) hc
  · cases he.symm.trans hr
    obtain ⟨out, hout, hlen, -⟩ := decodeGroups_built false p
    cases hx.symm.trans hout
    exact respondOk_wf (out := out) (by rw [Nat.pow_succ]; omega)

/-- Over ROMs as built, the answer to an operation that can be expressed is well formed. -/
theorem codec_built_wf {cfg : Config} {policy : DecodePolicy} {i : Instr} {r : Response} (hi : i.wf cfg)
    (hr : codec policy [] [] i = .ok r) : r.wf cfg := by
  cases i with
  | enc p => exact encOp_built_wf hi hr
  | dec p => exact decOp_built_wf hi hr
  | reservedOp00 p => cases hr; exact illegalOp_wf (.inl rfl)
  | reservedOp11 p => cases hr; exact illegalOp_wf (.inr rfl)

@[simp] theorem instrOfOp_payload (op : Op) (p : List Byte) : (instrOfOp op p).payload = p := by
  unfold instrOfOp
  split
  · rfl
  · split
    · rfl
    · split <;> rfl

/-- What a request decodes to can be expressed (R54). -/
theorem decode_ok_instr_wf {cfg : Config} {q : Request} {i : Instr} (h : decode cfg q = .ok i) : i.wf cfg := by
  have hq : q.wf cfg := decode_ok_wf h
  cases (decode_of_wf hq).symm.trans h
  obtain ⟨hlen, hp⟩ := hq
  rw [Instr.wf, instrOfOp_payload, hp]
  exact hlen

/-! ### The invariant -/

/-- The invariant says nothing about the turns to come. -/
theorem State.Inv.setTurns {s : State} (h : s.Inv) (ts : List Turn) : (s.setTurns ts).Inv :=
  ⟨h.cfg, h.roms, h.ifState, h.delivered⟩

theorem State.Inv.setIf {s : State} {x : IfState} (h : s.Inv) (hx : x.wf s.cfg) : (s.setIf x).Inv :=
  ⟨h.cfg, h.roms, hx, h.delivered⟩

/-- A turn keeps the invariant: it accepts what decodes, completes with an answer of the codec, and delivers what was
offered. -/
theorem TurnEffect.keeps_inv {s t : State} {u : Turn} (h : TurnEffect s u t) (hinv : s.Inv) : t.Inv := by
  cases h with
  | accept _ _ hd => exact ⟨hinv.cfg, hinv.roms, decode_ok_wf hd, hinv.delivered⟩
  | complete _ hd hr =>
    obtain ⟨halpha, hrom⟩ := hinv.roms
    rw [halpha, hrom] at hr
    exact hinv.setIf (codec_built_wf (decode_ok_instr_wf hd) hr)
  | deliver hif =>
    obtain ⟨hcfg, hroms, hwf, hdel⟩ := hinv
    rw [hif] at hwf
    exact ⟨hcfg, hroms, trivial, List.forall_mem_append.mpr ⟨hdel, List.forall_mem_singleton.mpr hwf⟩⟩
  | reset => exact hinv.setIf trivial
  | _ => exact hinv

end Sys2Proof.Machine
end

section
/-! No turn faults (20_memory.md R33, R38; 70_reset_and_hazards.md R115). -/

namespace Sys2Proof.Machine

/-- An acceptance reads no ROM and no response. -/
theorem acceptRequest_ne_fault (s : State) (f : Fault) : acceptRequest s ≠ .fault f := by
  unfold acceptRequest
  split
  · split <;> simp
  · simp
  · simp

/-- A completion offers the codec's answer, and the codec is total. -/
theorem completeRequest_ne_fault (s : State) (f : Fault) : completeRequest s ≠ .fault f := by
  unfold completeRequest
  split
  · split
    · rename_i i _
      obtain ⟨r, -, he⟩ := exec_completes i s
      simp [he]
    · simp
  · simp
  · simp

theorem takeTurn_ne_fault (u : Turn) (s : State) (f : Fault) : takeTurn u s ≠ .fault f := by
  cases u with
  | accept => exact acceptRequest_ne_fault s f
  | complete => exact completeRequest_ne_fault s f
  | deliver | reset | clk => simp [takeTurn]

end Sys2Proof.Machine
end

section
/-! Responses come back in the order of the requests (20_memory.md R47, R48; 30_encoding.md R69). -/

namespace Sys2Proof.Machine

/-- The requests still to be answered to the requester, in order: the one the block is at work on or whose response it
offers, then those not yet accepted. -/
inductive Undelivered (s : State) : List Request → Prop where
  | idle (hif : s.ifState = .idle) : Undelivered s s.offered
  | busy {q} (hif : s.ifState = .busy q) : Undelivered s (q :: s.offered)
  | done {q r} (hif : s.ifState = .done r) (hans : Answers s q r) : Undelivered s (q :: s.offered)

/-- A turn leaves the turns to come alone. -/
theorem TurnEffect.turns {s t : State} {u : Turn} (h : TurnEffect s u t) : t.turns = s.turns := by
  cases h <;> rfl

/-- A step uses up the turn scheduled first, if there is one. -/
theorem step_turns {s t : State} (h : step s = .next t) : t.turns = s.turns.tail := by
  rcases step_cases h with ⟨hts, he⟩ | ⟨u, ts, hts, he⟩
  · rw [he.turns, hts]; rfl
  · rw [he.turns, hts]; rfl

/-- No step changes what the answer to a request is: the codec depends on constants alone (R22). -/
theorem answers_of_step {s t : State} (h : step s = .next t) : Answers t = Answers s := by
  obtain ⟨hcfg, halpha, hinv⟩ := step_constants h
  funext q r
  simp only [Answers, hcfg, halpha, hinv]

/-- A step other than a reset keeps the requests still to be answered and delivers nothing, or it delivers the answer
to the first of them. -/
theorem Undelivered.step {s t : State} {qs : List Request} (hu : Undelivered s qs) (h : step s = .next t)
    (hreset : Turn.reset ∉ s.turns) :
    (Undelivered t qs ∧ t.delivered = s.delivered) ∨
    (∃ q qs' r, qs = q :: qs' ∧ Answers s q r ∧ Undelivered t qs' ∧ t.delivered = s.delivered ++ [r]) := by
  rcases ifstateMovesByTheFourTransitionsOnly s t h with
    ⟨q, hif, ho, ht, hdel⟩ | ⟨q, r, hif, hans, ht, ho, hdel⟩ | ⟨r, hif, ht, ho, hdel⟩ | ⟨hhead, -⟩ | ⟨ht, ho, hdel⟩
  · refine .inl ⟨?_, hdel⟩
    cases hu with
    | idle _ => rw [ho]; exact .busy ht
    | busy hif' | done hif' => cases hif.symm.trans hif'
  · refine .inl ⟨?_, hdel⟩
    cases hu with
    | busy hif' => cases hif.symm.trans hif'; rw [← ho]; exact .done ht (by rwa [answers_of_step h])
    | idle hif' | done hif' => cases hif.symm.trans hif'
  · cases hu with
    | done hif' hans =>
      cases hif.symm.trans hif'
      exact .inr ⟨_, _, r, rfl, hans, by rw [← ho]; exact .idle ht, hdel⟩
    | idle hif' | busy hif' => cases hif.symm.trans hif'
  · exact absurd (List.mem_of_head? hhead) hreset
  · refine .inl ⟨?_, hdel⟩
    cases hu with
    | idle hif => rw [← ho]; exact .idle (ht.trans hif)
    | busy hif => rw [← ho]; exact .busy (ht.trans hif)
    | done hif hans => rw [← ho]; exact .done (ht.trans hif) (by rwa [answers_of_step h])

/-- In a run without reset, the responses delivered are the answers to the first of the requests to be answered. -/
theorem stepN_delivers_answers {n : Nat} : ∀ {s t : State} {qs : List Request}, Undelivered s qs →
    Turn.reset ∉ s.turns → stepN n s = .next t →
    ∃ rs : List Response, t.delivered = s.delivered ++ rs ∧ rs.length ≤ qs.length ∧
      List.Forall₂ (Answers s) (qs.take rs.length) rs := by
  induction n with
  | zero =>
    intro s t qs _ _ h
    cases h
    exact ⟨[], by simp⟩
  | succ n ih =>
    intro s t qs hu hreset h
    rw [stepN] at h
    split at h
    · rename_i s₁ hstep
      have hreset₁ : Turn.reset ∉ s₁.turns := by
        rw [step_turns hstep]
        exact fun hmem => hreset (List.mem_of_mem_tail hmem)
      rcases hu.step hstep hreset with ⟨hu₁, hdel₁⟩ | ⟨q, qs₁, r, rfl, hans, hu₁, hdel₁⟩
      · obtain ⟨rs, hdel, hlen, hall⟩ := ih hu₁ hreset₁ h
        rw [answers_of_step hstep] at hall
        exact ⟨rs, by rw [hdel, hdel₁], hlen, hall⟩
      · obtain ⟨rs, hdel, hlen, hall⟩ := ih hu₁ hreset₁ h
        rw [answers_of_step hstep] at hall
        exact ⟨r :: rs, by simp [hdel, hdel₁], Nat.succ_le_succ hlen, .cons hans hall⟩
    · cases h
    · cases h

end Sys2Proof.Machine
end

section
/-! The statements about the ROMs, the memory order and the interface (20_memory.md), settled. -/

namespace Sys2Proof.Machine

/-- Settles O51: the turn a step takes keeps the invariant, and so does using it up. -/
theorem everyStepKeepsTheInvariant : Obligations.EveryStepKeepsTheInvariant := by
  intro s t hinv h
  rcases step_cases h with ⟨-, he⟩ | ⟨u, ts, -, he⟩
  · exact he.keeps_inv hinv
  · exact he.keeps_inv (hinv.setTurns ts)

/-- Settles O9: a lookup that gives a code shows that it is mapped and which digit it has. -/
theorem inverseRomInvertsTheAlphabet : Obligations.InverseRomInvertsTheAlphabet := by
  rintro s c ⟨halpha, hinv⟩
  rw [halpha, hinv, invLookup_built]
  constructor
  · intro d hd
    obtain ⟨hc, rfl⟩ := alphaLookup_built_eq_ok.mp hd
    rw [if_pos hc, setWidth_digitOfChar]
  · intro hnone
    have hc : ¬ mapped c = true := fun hc => hnone _ (alphaLookup_built_eq_ok.mpr ⟨hc, rfl⟩)
    rw [if_neg hc]
    rfl

/-- Settles O10: a valid entry is that of a mapped code and holds its digit. -/
theorem alphabetRomInvertsTheInverseRom : Obligations.AlphabetRomInvertsTheInverseRom := by
  rintro s c e ⟨halpha, hinv⟩ he hvalid
  rw [hinv, invLookup_built, Except.ok.injEq] at he
  subst he
  rw [entryValid_built] at hvalid
  rw [halpha, entryDigit_built]
  exact alphaLookup_built_eq_ok.mpr ⟨hvalid, rfl⟩

/-- Settles O12: the entry is valid exactly for a mapped code. -/
theorem tenCodesOfTheRangeAreUnmapped : Obligations.TenCodesOfTheRangeAreUnmapped := by
  rintro s c ⟨-, hinv⟩ hlo hhi
  refine ⟨_, by rw [hinv, invLookup_built], ?_⟩
  rw [entryValid_built]
  have h := mapped_eq_false_of_range (c.toNat - 32) (by omega)
  rwa [Nat.add_sub_cancel' hlo, BitVec.ofNat_toNat, BitVec.setWidth_eq] at h

/-- Settles O36: a step takes one turn, and no turn faults. -/
theorem noStepEverFaults : Obligations.NoStepEverFaults :=
  fun _ f => takeTurn_ne_fault _ _ f

/-- Settles O47: in `IDLE` the requests still to be answered are those the requester holds. -/
theorem responsesComeBackInRequestOrder : Obligations.ResponsesComeBackInRequestOrder :=
  fun _ _ _ hif hreset h => stepN_delivers_answers (.idle hif) hreset h

/-- Settles O7: a lookup over `ALPHA_ROM` as built is the character of the digit, range by range. -/
theorem alphabetRomHoldsTheEnumerationOrder : Obligations.AlphabetRomHoldsTheEnumerationOrder := by
  rintro s d ⟨halpha, -⟩
  rw [halpha]
  refine ⟨fun h9 => ?_, fun h10 h35 => ?_, fun h36 h61 => ?_, fun h62 h84 => ?_⟩
  · rw [alphaLookup_built (by omega), charOfDigit_numeral _ (by omega)]
  · rw [alphaLookup_built (by omega), ← charOfDigit_lowercase _ (by omega), Nat.add_sub_cancel' h10]
  · rw [alphaLookup_built (by omega), ← charOfDigit_uppercase _ (by omega), Nat.add_sub_cancel' h36]
  · have hsign := charOfDigit_sign (d.toNat - 62)
    rw [Nat.add_sub_cancel' h62] at hsign
    rw [alphaLookup_built (by omega), hsign]
    rfl

/-- Settles O8: the addresses below 85 are those of the space, and a remainder of a division by 85 is one of them. -/
theorem alphabetRomRefusesOtherAddresses : Obligations.AlphabetRomRefusesOtherAddresses :=
  ⟨fun rom _ h => alphaLookup_outside rom h, fun rom _ h => alphaLookup_total rom (Nat.lt_succ_of_le h),
    fun w _ hk => encodeDigits_le w hk⟩

/-- Settles O11: a code outside the range is answered by the lookup itself, and INV_ROM has 95 addresses. -/
theorem outOfRangeCodesReadNoRom : Obligations.OutOfRangeCodesReadNoRom :=
  ⟨fun rom _ h => invLookup_outside rom h,
    fun rom _ h => memRead_outside rom (by rw [built_inv_isSome, decide_eq_false_iff_not]; omega),
    invLookup_total⟩

/-- Settles O13, by the layouts of the word and of its bytes. -/
theorem byteGroupWordIsBigEndian : Obligations.ByteGroupWordIsBigEndian :=
  fun b0 b1 b2 b3 => ⟨groupWord_toNat b0 b1 b2 b3, splitWord_groupWord b0 b1 b2 b3⟩

end Sys2Proof.Machine
end

section
/-! A message and the request it writes out (30_encoding.md R54, R55; the header form of 95_test_vectors.md section 3):
the header is a positional number, and decoding and encoding undo each other on requests and so on messages. -/

namespace Sys2Proof

/-! ### The header -/

/-- The request that a header number and payload bytes write out, whatever they are. -/
def messageRequest (cfg : Config) (header : Nat) (payload : List Byte) : Request :=
  ⟨BitVec.ofNat 2 (header / 2 ^ cfg.lenW), header % 2 ^ cfg.lenW, payload⟩

/-- A message decodes as its request does, once its header has no bit too many. -/
theorem decodeMessage_eq_ok {cfg : Config} {header : Nat} {payload : List Byte} {i : Instr} :
    decodeMessage cfg header payload = .ok i ↔
      header < 2 ^ (cfg.lenW + 2) ∧ decode cfg (messageRequest cfg header payload) = .ok i := by
  unfold decodeMessage
  split
  · simp [Nat.not_lt.mpr ‹_›]
  · simp [Nat.not_le.mp ‹_›, messageRequest]

/-- `op` and a `len` that fits stand side by side in `LEN_W` + 2 bits. -/
theorem header_lt {cfg : Config} {q : Request} (hlen : q.len < 2 ^ cfg.lenW) :
    q.header cfg < 2 ^ (cfg.lenW + 2) := by
  have hop : q.op.toNat + 1 ≤ 4 := q.op.isLt
  calc q.op.toNat * 2 ^ cfg.lenW + q.len
    _ < (q.op.toNat + 1) * 2 ^ cfg.lenW := by rw [Nat.succ_mul]; omega
    _ ≤ 4 * 2 ^ cfg.lenW := Nat.mul_le_mul_right _ hop
    _ = 2 ^ (cfg.lenW + 2) := by rw [Nat.pow_add, Nat.mul_comm]

/-- The header of a request writes out the request. -/
theorem messageRequest_header {cfg : Config} {q : Request} (hlen : q.len < 2 ^ cfg.lenW) :
    messageRequest cfg (q.header cfg) q.p = q := by
  have hdiv : q.header cfg / 2 ^ cfg.lenW = q.op.toNat := by
    rw [Request.header, Nat.mul_comm, Nat.mul_add_div (Nat.two_pow_pos _), Nat.div_eq_of_lt hlen, Nat.add_zero]
  have hmod : q.header cfg % 2 ^ cfg.lenW = q.len := by
    rw [Request.header, Nat.mul_add_mod', Nat.mod_eq_of_lt hlen]
  rw [messageRequest, hdiv, hmod, BitVec.ofNat_toNat, BitVec.setWidth_eq]

/-- A header without a bit too many is the header of the request it writes out. -/
theorem header_messageRequest {cfg : Config} {header : Nat} (payload : List Byte)
    (hlt : header < 2 ^ (cfg.lenW + 2)) : (messageRequest cfg header payload).header cfg = header := by
  have hop : header / 2 ^ cfg.lenW < 2 ^ 2 :=
    Nat.div_lt_of_lt_mul (by rwa [← Nat.pow_add])
  rw [Request.header, messageRequest, BitVec.toNat_ofNat, Nat.mod_eq_of_lt hop, Nat.div_add_mod']

/-! ### Requests -/

/-- The operation that `op` selects is selected by `op`. -/
theorem instrOfOp_opCode (op : Op) (p : List Byte) : (instrOfOp op p).opCode = op := by
  have hcases : ∀ o : Op, o = 0b00#2 ∨ o = 0b01#2 ∨ o = 0b10#2 ∨ o = 0b11#2 := by decide
  rcases hcases op with rfl | rfl | rfl | rfl <;> rfl

/-- The request of a well-formed operation can be expressed, and decodes to the operation. -/
theorem encode_decodesBack {cfg : Config} {i : Instr} (hi : i.wf cfg) :
    (encode i).wf cfg ∧ decode cfg (encode i) = .ok i := by
  cases i with
  | enc p => exact Laws.DecodesBack.enc p cfg hi
  | dec p => exact Laws.DecodesBack.dec p cfg hi
  | reservedOp00 p => exact Laws.DecodesBack.reservedOp00 p cfg hi
  | reservedOp11 p => exact Laws.DecodesBack.reservedOp11 p cfg hi

/-- A request that decodes is the request of what it decodes to. -/
theorem encode_of_decode {cfg : Config} {q : Request} {i : Instr} (h : decode cfg q = .ok i) : encode i = q := by
  have hq : q.wf cfg := Machine.decode_ok_wf h
  cases (Machine.decode_of_wf hq).symm.trans h
  rw [encode, instrOfOp_opCode, Machine.instrOfOp_payload, hq.2]

end Sys2Proof
end

section
/-! The bytes of a word, as the low bytes of its quotients (30_encoding.md R62, R68). -/

namespace Sys2Proof.Machine

/-- Byte `k` of a word as the low byte of the word divided down to it (R62). -/
theorem wordByte_eq_ofNat (w : Word) (k : Nat) : wordByte w k = BitVec.ofNat 8 (w.toNat / 2 ^ (24 - 8 * k)) := by
  apply BitVec.eq_of_toNat_eq
  rw [wordByte_toNat, BitVec.toNat_ofNat]

theorem splitWord_eq_ofNat (w : Word) : splitWord w =
    [BitVec.ofNat 8 (w.toNat / 2 ^ 24), BitVec.ofNat 8 (w.toNat / 2 ^ 16), BitVec.ofNat 8 (w.toNat / 2 ^ 8),
      BitVec.ofNat 8 w.toNat] := by
  simp [splitWord, wordByte_eq_ofNat]

end Sys2Proof.Machine
end

section
/-! The end of a program (30_encoding.md R69): with no turn scheduled and a requester that takes responses, three steps
serve one request. -/

namespace Sys2Proof.Machine

/-- The state after the first request held, `q`, was accepted: `qs` are still held. -/
def State.accepted (s : State) (q : Request) (qs : List Request) : State :=
  { s with ifState := .busy q, offered := qs }

/-- The state after the first request held was served: `r` is delivered for it, and `qs` are still held. -/
def State.served (s : State) (qs : List Request) (r : Response) : State :=
  { s with offered := qs, delivered := s.delivered ++ [r] }

theorem stepN_succ_of_step {s t : State} (h : step s = .next t) (n : Nat) : stepN (n + 1) s = stepN n t := by
  simp [stepN, h]

/-- Accept, complete and deliver, one step each (R21). -/
theorem stepN_serves_request {s : State} {q : Request} {qs : List Request} (hif : s.ifState = .idle)
    (hturns : s.turns = []) (htaking : s.taking = true) (ho : s.offered = q :: qs) (hq : q.wf s.cfg) :
    ∃ r, Answers s q r ∧ ∀ n, stepN (n + 3) s = stepN n (s.served qs r) := by
  have haccept : step s = .next (s.accepted q qs) := (idleAcceptsTheRequestOffered s q qs hif ho hq).1 hturns
  have hdecode := decode_of_wf hq
  obtain ⟨r, hr, hexec⟩ := exec_completes (instrOfOp q.op q.p) (s.accepted q qs)
  have hcomplete := ((stepExecutesTheDecodedRequest (s.accepted q qs) q _ rfl hdecode).1 hturns).trans hexec
  have hdeliver := (deliverHandsTheResponseOver ((s.accepted q qs).setIf (.done r)) r rfl).1 hturns htaking
  refine ⟨r, ⟨_, hdecode, hr⟩, fun n => ?_⟩
  rw [stepN_succ_of_step haccept, stepN_succ_of_step hcomplete, stepN_succ_of_step hdeliver]
  rw [State.served, ← hif]
  rfl

/-- By induction on the requests held: serving the first one leaves a state that serves the others. -/
theorem stepN_serves_program (qs : List Request) : ∀ s : State, s.ifState = .idle → s.turns = [] → s.taking = true →
    s.offered = qs → s.OffersRequests →
    ∃ rs : List Response, List.Forall₂ (Answers s) qs rs ∧
      stepN (3 * qs.length) s = .next { s with offered := [], delivered := s.delivered ++ rs } := by
  induction qs with
  | nil =>
    intro s _ _ _ ho _
    have hsame : { s with offered := [], delivered := s.delivered ++ [] } = s := by rw [List.append_nil, ← ho]
    exact ⟨[], .nil, congrArg Host.Outcome.next hsame.symm⟩
  | cons q qs ih =>
    intro s hif hturns htaking ho hall
    obtain ⟨hq, hqs⟩ := List.forall_mem_cons.mp (by rwa [State.OffersRequests, ho] at hall)
    obtain ⟨r, hr, hserve⟩ := stepN_serves_request hif hturns htaking ho hq
    obtain ⟨rs, hrs, hrun⟩ := ih (s.served qs r) hif hturns htaking rfl hqs
    refine ⟨r :: rs, .cons hr hrs, ?_⟩
    rw [List.length_cons, Nat.mul_succ, hserve, hrun]
    simp [State.served]

end Sys2Proof.Machine
end

section
/-! The statements about requests, responses and programs (30_encoding.md), settled. -/

namespace Sys2Proof.Machine

/-- Settles O1: the message writes out the operation's request, which decodes to the operation. -/
theorem encodedMessageDecodesToItsOperation : Obligations.EncodedMessageDecodesToItsOperation := by
  intro cfg i hi
  obtain ⟨⟨hlen, -⟩, hdecode⟩ := encode_decodesBack hi
  rw [decodeMessage_eq_ok, encodeMessage, messageRequest_header hlen]
  exact ⟨header_lt hlen, hdecode⟩

/-- Settles O2: the request that the message writes out is the request of what it decodes to. -/
theorem decodedMessageIsItsOperationsEncoding : Obligations.DecodedMessageIsItsOperationsEncoding := by
  intro cfg header payload i h
  obtain ⟨hlt, hdecode⟩ := decodeMessage_eq_ok.mp h
  refine ⟨decode_ok_instr_wf hdecode, ?_⟩
  rw [encodeMessage, encode_of_decode hdecode, header_messageRequest payload hlt]
  rfl

/-- Settles O3: a request decodes exactly when it can be expressed, and the `len` of a message always fits. -/
theorem messageDecodesExactlyWhenExpressible : Obligations.MessageDecodesExactlyWhenExpressible := by
  intro cfg header payload
  constructor
  · rintro ⟨i, h⟩
    obtain ⟨hlt, hdecode⟩ := decodeMessage_eq_ok.mp h
    exact ⟨hlt, (decode_ok_wf hdecode).2⟩
  · rintro ⟨hlt, hpayload⟩
    exact ⟨_, decodeMessage_eq_ok.mpr ⟨hlt, decode_of_wf ⟨Nat.mod_lt _ (Nat.two_pow_pos _), hpayload⟩⟩⟩

/-- Settles O32: the response is the codec's answer, which is well formed for some width that the payload fits, and
neither the count of its output nor its shape depends on the width. -/
theorem everyResponseHasTheShapeOfItsStatus : Obligations.EveryResponseHasTheShapeOfItsStatus := by
  rintro i s t r ⟨halpha, hinv⟩ hexec hread
  obtain ⟨r₁, hr, rfl⟩ := exec_next_eq_setIf_done hexec
  cases readResponse_eq_ok.mp hread
  rw [halpha, hinv] at hr
  have hfits : i.wf ⟨s.cfg.decodePolicy, i.payload.length⟩ := Nat.lt_two_pow_self
  obtain ⟨hcount, -, -, -, hshape⟩ := codec_built_wf hfits hr
  exact ⟨hcount, hshape⟩

/-- Settles O48, by induction on the requests held. -/
theorem programEndsWithTheListOfItsResponses : Obligations.ProgramEndsWithTheListOfItsResponses :=
  fun s hif hturns htaking hall => stepN_serves_program s.offered s hif hturns htaking rfl hall

/-- Settles O4: a request that can be expressed decodes to the operation that its `op` selects. -/
theorem opFieldSelectsTheOperation : Obligations.OpFieldSelectsTheOperation := by
  intro cfg q hq
  rw [decode_of_wf hq]
  refine ⟨?_, ?_, ?_, ?_⟩ <;> (intro hop; rw [hop]; rfl)

/-- Settles O6: a word is split into its bytes, most significant first. -/
theorem pseudoRequestsExpand : Obligations.PseudoRequestsExpand :=
  ⟨fun ws => by simp only [Line.request, funext splitWord_eq_ofNat], rfl⟩

end Sys2Proof.Machine
end

section
/-! A group whose first four digits are 0 shows the lookups of its last digit (40_tables.md R72), settled. -/

namespace Sys2Proof.Machine

theorem groupWord_zeros_toNat (b : Byte) : (groupWord 0 0 0 b).toNat = b.toNat := by simp [groupWord_toNat]

theorem charsOfValue_of_lt {n : Nat} (h : n < 85) : charsOfValue n = [0x30, 0x30, 0x30, 0x30, charOfDigit n] := by
  have hzero : charOfDigit 0 = 0x30 := rfl
  have h2 : n / 85 ^ 2 = 0 := Nat.div_eq_of_lt (by omega)
  have h3 : n / 85 ^ 3 = 0 := Nat.div_eq_of_lt (by omega)
  have h4 : n / 85 ^ 4 = 0 := Nat.div_eq_of_lt (by omega)
  rw [charsOfValue, h2, h3, h4, Nat.div_eq_of_lt h, Nat.mod_eq_of_lt h, Nat.zero_mod, hzero]

/-- The exact value of a text "0000x" is the digit of x. -/
theorem exactValue_zeros (x : Byte) : exactValue [0x30, 0x30, 0x30, 0x30, x] 0 = digitOfChar x := by
  have hzero : digitOfChar 0x30#8 = 0 := by decide
  simp [exactValue, hzero]

/-- Over `ALPHA_ROM` as built, a byte group that holds a digit alone is written "0000" and the digit's character. -/
theorem encodeGroups_built_zeros {b : Byte} (h : b.toNat < 85) :
    encodeGroups [] [0, 0, 0, b] = .ok [0x30, 0x30, 0x30, 0x30, charOfDigit b.toNat] := by
  rw [encodeGroups_built_cons, groupWord_zeros_toNat, charsOfValue_of_lt h]
  rfl

/-- Over `INV_ROM` as built, "0000x" is read as a byte group that holds the digit of x alone, without overflow. -/
theorem decodeGroups_built_zeros (x : Byte) :
    decodeGroups [] false [0x30, 0x30, 0x30, 0x30, x] = .ok ([0, 0, 0, BitVec.ofNat 8 (digitOfChar x)], false) := by
  have hlt : digitOfChar x < 85 := digitOfChar_lt x
  have hword : BitVec.ofNat 32 (digitOfChar x) = groupWord 0 0 0 (BitVec.ofNat 8 (digitOfChar x)) := by
    apply BitVec.eq_of_toNat_eq
    rw [groupWord_zeros_toNat, BitVec.toNat_ofNat, BitVec.toNat_ofNat]
    omega
  have hfits : decide (2 ^ 32 ≤ digitOfChar x) = false := decide_eq_false (by omega)
  rw [decodeGroups_built_cons, exactValue_zeros, hword, splitWord_groupWord, hfits]
  rfl

/-- Settles O55: with the ROMs as built, the character is that of the digit, so it is mapped and either policy takes
it. -/
theorem singleLookupsAreObservable : Obligations.SingleLookupsAreObservable := by
  rintro s d ⟨halpha, hinv⟩ hd
  have hlt : d.toNat < 85 := by omega
  have hbyte : (d.setWidth 8).toNat = d.toNat := by rw [BitVec.toNat_setWidth]; omega
  have henc := encodeGroups_built_zeros (b := d.setWidth 8) (by omega)
  have hdec := decodeGroups_built_zeros (charOfDigit d.toNat)
  rw [hbyte] at henc
  rw [digitOfChar_charOfDigit hlt, BitVec.ofNat_toNat] at hdec
  have hmapped : ∀ c ∈ [0x30, 0x30, 0x30, 0x30, charOfDigit d.toNat], mapped c = true := by
    have hzero : mapped 0x30#8 = true := by decide
    simp [hzero, mapped_charOfDigit hlt]
  refine ⟨charOfDigit d.toNat, ?_, offeredBy_exec ?_, offeredBy_exec ?_⟩
  · rw [halpha, alphaLookup_built hlt]
  · rw [halpha]
    exact encOp_of_groups (Nat.mod_self 4) henc
  · rw [hinv]
    exact decOp_of_groups (Nat.mod_self 5) (offendingCharacter_built_none (.inr hmapped)) hdec

end Sys2Proof.Machine
end

section
/-! The outputs of unit `z85_encoder` by position (41_encoder.md R75; 30_encoding.md R61). -/

namespace Sys2Proof.Machine

/-- The closed form of digit `k` (R75). -/
theorem digitAt_encodeDigits (w : Word) {k : Nat} (hk : k < 5) :
    (digitAt (encodeDigits w) k).toNat = w.toNat / 85 ^ (4 - k) % 85 := by
  obtain ⟨h0, h1, h2, h3, h4⟩ := encodeDigits_toNat w
  match k, hk with
  | 0, _ => exact h0
  | 1, _ => exact h1
  | 2, _ => exact h2
  | 3, _ => simpa using h3
  | 4, _ => simpa using h4

theorem splitChars_get (c : CharGroup) {k : Nat} (hk : k < 5) : (splitChars c)[k]? = some (charAt c k) := by
  match k, hk with
  | 0, _ | 1, _ | 2, _ | 3, _ | 4, _ => rfl

end Sys2Proof.Machine
end

section
/-! What an operation does with the codec's answer (10_state.md R21, R22), the length check of ENC, and what its output
is made of (41_encoder.md R78, R79). -/

namespace Sys2Proof.Machine

/-- An operation offers what the codec answers. -/
theorem exec_of_codec {i : Instr} {s : State} {r : Response}
    (h : codec s.cfg.decodePolicy s.alphaRom s.invRom i = .ok r) : exec i s = .next (s.setIf (.done r)) := by
  rw [exec_eq_finish_codec, h, finish_ok]

/-- The length is checked before any group is encoded (R79). -/
theorem encOp_wrong_length (rom : Memory) {p : List Byte} (hl : p.length % 4 ≠ 0) :
    encOp rom p = .ok (raiseError (.invalidLength p.length 4#3)) :=
  if_pos hl

/-- Over `ALPHA_ROM` as built, every output byte is the character of a digit, so it is mapped (R78). -/
theorem encodeGroups_built_mapped {p out : List Byte} (h : encodeGroups [] p = .ok out) :
    ∀ c ∈ out, mapped c = true := by
  intro c hc
  obtain ⟨out', h', hlen, hget⟩ := encodeGroups_built p
  cases h.symm.trans h'
  obtain ⟨j, hj, rfl⟩ := List.mem_iff_getElem.mp hc
  have hchar := hget (j / 5) (by omega) (j % 5) (Nat.mod_lt _ (by decide))
  rw [Nat.div_add_mod, List.getElem?_eq_getElem hj, Option.some.injEq] at hchar
  rw [hchar]
  exact mapped_charOfDigit (Nat.mod_lt _ (by decide))

end Sys2Proof.Machine
end

section
/-! The decoder's loop undoes the encoder's loop over ROMs as built: each group's word is recovered from its five digits
(41_encoder.md R75, R81). -/

namespace Sys2Proof.Machine

/-- The exact value of a word's five characters is the word. -/
theorem exactValue_charsOfValue {n : Nat} (h : n < 2 ^ 32) (rest : List Byte) :
    exactValue (charsOfValue n ++ rest) 0 = n := by
  have hdigit : ∀ m, digitOfChar (charOfDigit (m % 85)) = m % 85 :=
    fun m => digitOfChar_charOfDigit (Nat.mod_lt m (by decide))
  rw [charsOfValue, List.cons_append, List.cons_append, List.cons_append, List.cons_append, List.cons_append,
    List.nil_append, ← exactOf_eq_exactValue, hdigit, hdigit, hdigit, hdigit, hdigit, exactOf_digits n h]

/-- The characters of a byte group are read as its bytes, without overflow. -/
theorem decodeGroups_built_charsOfValue {o o' : Bool} {rest bs : List Byte} (b0 b1 b2 b3 : Byte)
    (h : decodeGroups [] o rest = .ok (bs, o')) :
    decodeGroups [] o (charsOfValue (groupWord b0 b1 b2 b3).toNat ++ rest) = .ok (b0 :: b1 :: b2 :: b3 :: bs, o') := by
  have hvalue := exactValue_charsOfValue (groupWord b0 b1 b2 b3).isLt rest
  have hfits : decide (2 ^ 32 ≤ (groupWord b0 b1 b2 b3).toNat) = false :=
    decide_eq_false (Nat.not_le.mpr (groupWord b0 b1 b2 b3).isLt)
  rw [charsOfValue] at hvalue ⊢
  simp only [List.cons_append, List.nil_append] at hvalue ⊢
  rw [decodeGroups_built_cons, hvalue, hfits, Bool.or_false, h, BitVec.ofNat_toNat, BitVec.setWidth_eq,
    splitWord_groupWord]
  rfl

/-- Decoding what was encoded gives the payload back, and no group overflows. -/
theorem decodeGroups_built_encodeGroups (o : Bool) : ∀ {p out : List Byte}, p.length % 4 = 0 →
    encodeGroups [] p = .ok out → decodeGroups [] o out = .ok (p, o)
  | b0 :: b1 :: b2 :: b3 :: rest, out, hl, h => by
    obtain ⟨cs, hcs, -⟩ := encodeGroups_built rest
    rw [encodeGroups_built_cons, hcs] at h
    cases h
    exact decodeGroups_built_charsOfValue b0 b1 b2 b3
      (decodeGroups_built_encodeGroups o (by simp only [List.length_cons] at hl; omega) hcs)
  | [], _, _, h => by cases h; rfl
  | [_], _, hl, _ | [_, _], _, hl, _ | [_, _, _], _, hl, _ => by simp at hl

/-- Whole byte groups with the same output are the same. -/
theorem encodeGroups_built_injective {p p' out : List Byte} (hl : p.length % 4 = 0) (hl' : p'.length % 4 = 0)
    (h : encodeGroups [] p = .ok out) (h' : encodeGroups [] p' = .ok out) : p = p' := by
  have hp := decodeGroups_built_encodeGroups false hl h
  have hp' := decodeGroups_built_encodeGroups false hl' h'
  cases hp.symm.trans hp'
  rfl

end Sys2Proof.Machine
end

section
/-! The statements about the encoder (41_encoder.md), settled. -/

namespace Sys2Proof.Machine

/-- Settles O14: the digits by position, and the quotient of the largest word by 85^4 is 82. -/
theorem encoderDigitsAreTheBase85Digits : Obligations.EncoderDigitsAreTheBase85Digits := by
  intro w
  obtain ⟨h0, h1, h2, h3, h4⟩ := encodeDigits_toNat w
  refine ⟨fun k hk => digitAt_encodeDigits w hk, ?_, ?_, fun k hk => encodeDigits_le w hk⟩
  · rw [h0, h1, h2, h3, h4]
    exact (exactOf_digits w.toNat w.isLt).symm
  · have hlt : w.toNat < 2 ^ 32 := w.isLt
    omega

/-- Settles O15: character `k` of the answer stands at position `k` of the word's characters. -/
theorem encoderUnitWritesTheDigitsCharacters : Obligations.EncoderUnitWritesTheDigitsCharacters := by
  rintro s w ⟨halpha, -⟩
  refine ⟨_, by rw [halpha, encodeGroup_built], fun k hk => ?_⟩
  rw [← Option.some.injEq, ← splitChars_get _ hk, splitChars_packChars]
  exact charsOfValue_get w.toNat hk

/-- Settles O16: ENC answers the length error, or the output of the encoder's loop. -/
theorem encTranslatesEveryByteGroup : Obligations.EncTranslatesEveryByteGroup := by
  rintro p s ⟨halpha, -⟩
  constructor
  · intro hl
    obtain ⟨out, hout, hlen, hget⟩ := encodeGroups_built p
    rw [← halpha] at hout
    refine ⟨out, ?_, hlen, hget⟩
    rw [← hlen]
    exact exec_of_codec (encOp_of_groups hl hout)
  · intro hl
    exact exec_of_codec (encOp_wrong_length s.alphaRom hl)

/-- Settles O17: an error carries no output, and the encoder's loop writes mapped codes only. -/
theorem encOutputHoldsAlphabetCodesOnly : Obligations.EncOutputHoldsAlphabetCodesOnly := by
  rintro p s t r ⟨halpha, -⟩ hexec hread
  obtain ⟨r₁, hr, rfl⟩ := exec_next_eq_setIf_done hexec
  cases readResponse_eq_ok.mp hread
  rw [halpha] at hr
  rcases encOp_cases [] p with ⟨-, he⟩ | ⟨-, out, hout, he⟩
  · cases he.symm.trans hr
    exact List.forall_mem_nil _
  · cases he.symm.trans hr
    exact encodeGroups_built_mapped hout

/-- Settles O18: the codec reads nothing but `ALPHA_ROM` for ENC, and executing an operation offers its answer. -/
theorem encDependsOnPayloadAndAlphabetOnly : Obligations.EncDependsOnPayloadAndAlphabetOnly := by
  intro p s t halpha
  obtain ⟨r, hr, hs⟩ := exec_completes (.enc p) s
  have hr' : encOp t.alphaRom p = .ok r := halpha ▸ hr
  exact ⟨r, hs, exec_of_codec hr'⟩

/-- Settles O19: the response holds the output, which decodes to the payload. -/
theorem encIsInjectiveOnOneLength : Obligations.EncIsInjectiveOnOneLength := by
  rintro p p' s ⟨halpha, -⟩ hlen hl hoffered
  have hl' : p'.length % 4 = 0 := hlen ▸ hl
  obtain ⟨out, hout, -⟩ := encodeGroups_built p
  obtain ⟨out', hout', -⟩ := encodeGroups_built p'
  have hp : offeredBy (exec (.enc p) s) = some (respondOk out false) :=
    offeredBy_exec (encOp_of_groups hl (by rwa [halpha]))
  have hp' : offeredBy (exec (.enc p') s) = some (respondOk out' false) :=
    offeredBy_exec (encOp_of_groups hl' (by rwa [halpha]))
  have hsame : respondOk out false = respondOk out' false :=
    Option.some.inj (hp.symm.trans (hoffered.trans hp'))
  have houts : out = out' := congrArg Response.r hsame
  subst houts
  exact encodeGroups_built_injective hl hl' hout hout'

end Sys2Proof.Machine
end

section
/-! The answer of unit `z85_decoder` to a whole character group (42_decoder.md R82; 30_encoding.md R61, R64). -/

namespace Sys2Proof.Machine

/-- Putting a group's characters together again gives the group (R61). -/
@[simp] theorem packChars_charAt (c : CharGroup) :
    packChars (charAt c 0) (charAt c 1) (charAt c 2) (charAt c 3) (charAt c 4) = c := by
  apply BitVec.eq_of_toNat_eq
  rw [packChars_toNat]
  simp only [charAt_toNat]
  have hlt : c.toNat < 2 ^ 40 := c.isLt
  omega

theorem exactValue_splitChars (c : CharGroup) : exactValue (splitChars c) 0 =
    exactOf (digitOfChar (charAt c 0)) (digitOfChar (charAt c 1)) (digitOfChar (charAt c 2)) (digitOfChar (charAt c 3))
      (digitOfChar (charAt c 4)) :=
  (exactOf_eq_exactValue _ _ _ _ _ []).symm

/-- Bit `k` of `vmask` is the flag of character `k` (R64), by position. -/
theorem groupVmask_getLsbD_of_lt (valid : Nat → Bool) {k : Nat} (hk : k < 5) :
    (groupVmask (valid 0) (valid 1) (valid 2) (valid 3) (valid 4)).getLsbD k = valid k := by
  obtain ⟨h0, h1, h2, h3, h4⟩ := groupVmask_getLsbD (valid 0) (valid 1) (valid 2) (valid 3) (valid 4)
  match k, hk with
  | 0, _ => exact h0
  | 1, _ => exact h1
  | 2, _ => exact h2
  | 3, _ => exact h3
  | 4, _ => exact h4

/-- The decoder's answer over `INV_ROM` as built, in terms of the group alone (R82). -/
theorem decodeGroup_built_splitChars (c : CharGroup) :
    decodeGroup [] c =
      .ok ⟨BitVec.ofNat 32 (exactValue (splitChars c) 0),
        groupVmask (mapped (charAt c 0)) (mapped (charAt c 1)) (mapped (charAt c 2)) (mapped (charAt c 3))
          (mapped (charAt c 4)),
        decide (2 ^ 32 ≤ exactValue (splitChars c) 0)⟩ := by
  rw [exactValue_splitChars, ← decodeGroup_built, packChars_charAt]

end Sys2Proof.Machine
end

section
/-! Exact values are ordered as their digit strings (42_decoder.md R83). -/

namespace Sys2Proof.Machine

/-- Numbers whose lower parts stay below the weight of the leading digit compare by that digit first. -/
theorem leadingDigit_lt_iff {m d e x y : Nat} (hx : x < m) (hy : y < m) :
    e * m + y < d * m + x ↔ e < d ∨ (d = e ∧ y < x) := by
  rcases Nat.lt_trichotomy e d with h | rfl | h
  · have hle : (e + 1) * m ≤ d * m := Nat.mul_le_mul_right m h
    rw [Nat.succ_mul] at hle
    omega
  · omega
  · have hle : (d + 1) * m ≤ e * m := Nat.mul_le_mul_right m h
    rw [Nat.succ_mul] at hle
    omega

/-- Exact values are ordered lexicographically by their digits. -/
theorem exactOf_lt_exactOf_iff {d0 d1 d2 d3 d4 e0 e1 e2 e3 e4 : Nat}
    (hd1 : d1 < 85) (hd2 : d2 < 85) (hd3 : d3 < 85) (hd4 : d4 < 85)
    (he1 : e1 < 85) (he2 : e2 < 85) (he3 : e3 < 85) (he4 : e4 < 85) :
    exactOf e0 e1 e2 e3 e4 < exactOf d0 d1 d2 d3 d4 ↔
      e0 < d0 ∨ (d0 = e0 ∧ (e1 < d1 ∨ (d1 = e1 ∧ (e2 < d2 ∨ (d2 = e2 ∧ (e3 < d3 ∨ (d3 = e3 ∧ e4 < d4))))))) := by
  simp only [exactOf, Nat.add_assoc]
  rw [leadingDigit_lt_iff (m := 85 ^ 4) (by omega) (by omega), leadingDigit_lt_iff (m := 85 ^ 3) (by omega) (by omega),
    leadingDigit_lt_iff (m := 85 ^ 2) (by omega) (by omega), leadingDigit_lt_iff hd4 he4]

end Sys2Proof.Machine
end

section
/-! DEC over ROMs as built (42_decoder.md R85 to R88): a text that the policy accepts is answered from its groups alone,
a text that it does not accept with the first unmapped character. -/

namespace Sys2Proof.Machine

/-! ### Texts that the policy accepts -/

/-- DEC's answer to a text that the policy accepts, in which the policy no longer occurs (R85). -/
theorem decOp_built_accepted {policy : DecodePolicy} {p : List Byte}
    (h : policy = .lenient ∨ ∀ c ∈ p, mapped c = true) :
    decOp policy [] p =
      if p.length % 5 ≠ 0 then .ok (raiseError (.invalidLength p.length 5#3))
      else (decodeGroups [] false p).map fun x => respondOk x.1 x.2 := by
  unfold decOp
  rw [offendingCharacter_built_none h]
  cases decodeGroups [] false p <;> rfl

/-- Executing DEC of an accepted text of whole groups offers what the decoder's loop gathers. -/
theorem exec_dec_of_groups {s : State} {p out : List Byte} {o : Bool} (hrom : s.RomsAsBuilt) (hl : p.length % 5 = 0)
    (hpol : s.cfg.decodePolicy = .lenient ∨ ∀ c ∈ p, mapped c = true)
    (h : decodeGroups [] false p = .ok (out, o)) :
    exec (.dec p) s = .next (s.setIf (.done (respondOk out o))) := by
  obtain ⟨-, hinv⟩ := hrom
  rw [← hinv] at h
  exact exec_of_codec (decOp_of_groups hl (hinv ▸ offendingCharacter_built_none hpol) h)

theorem offeredBy_exec_dec_of_groups {s : State} {p out : List Byte} {o : Bool} (hrom : s.RomsAsBuilt)
    (hl : p.length % 5 = 0) (hpol : s.cfg.decodePolicy = .lenient ∨ ∀ c ∈ p, mapped c = true)
    (h : decodeGroups [] false p = .ok (out, o)) : offeredBy (exec (.dec p) s) = some (respondOk out o) := by
  rw [exec_dec_of_groups hrom hl hpol h, offeredBy_next_done]

/-! ### The digits are all that the groups take from the characters -/

/-- The character 0 has the digit that an unmapped one counts as (R88). -/
theorem digitOfChar_zero_of_unmapped (c : Byte) : digitOfChar (if mapped c then c else 0x30#8) = digitOfChar c := by
  cases h : mapped c with
  | true => rfl
  | false => rw [digitOfChar_unmapped h]; exact (by decide : digitOfChar 0x30#8 = 0)

/-- Replacing characters by others of the same digit changes nothing that the decoder's loop gathers. -/
theorem decodeGroups_built_map {f : Byte → Byte} (hf : ∀ c, digitOfChar (f c) = digitOfChar c) :
    ∀ (o : Bool) (p : List Byte), decodeGroups [] o (p.map f) = decodeGroups [] o p
  | o, c0 :: c1 :: c2 :: c3 :: c4 :: rest => by
    simp only [List.map_cons, decodeGroups_built_cons, ← exactOf_eq_exactValue, hf, decodeGroups_built_map hf _ rest]
  | _, [] | _, [_] | _, [_, _] | _, [_, _, _] | _, [_, _, _, _] => rfl

/-! ### Texts that the policy does not accept -/

/-- Under `STRICT` the check reports an unmapped character that only mapped ones precede (R87). -/
theorem offendingCharacter_built_first {p : List Byte} {i : Nat} {c : Byte} (hi : p[i]? = some c)
    (hc : mapped c = false) (hbefore : ∀ j < i, ∀ d, p[j]? = some d → mapped d = true) :
    offendingCharacter .strict [] p = .ok (some (i, c)) := by
  rcases firstUnmapped_built p 0 with ⟨-, hall⟩ | ⟨j, d, hs, hj, hd, hlt⟩
  · simp [hall c (List.mem_of_getElem? hi)] at hc
  · rcases Nat.lt_trichotomy j i with hji | rfl | hij
    · simp [hbefore j hji d hj] at hd
    · cases hi.symm.trans hj
      rwa [Nat.zero_add] at hs
    · obtain ⟨e, he, hmapped⟩ := hlt i hij
      cases hi.symm.trans he
      simp [hc] at hmapped

theorem decOp_of_offender {policy : DecodePolicy} {rom : Memory} {p : List Byte} {i : Nat} {c : Byte}
    (hl : p.length % 5 = 0) (h : offendingCharacter policy rom p = .ok (some (i, c))) :
    decOp policy rom p = .ok (raiseError (.invalidCharacter i c)) := by
  rcases decOp_cases policy rom p with ⟨hne, -⟩ | ⟨-, i₁, c₁, h₁, he⟩ | ⟨-, hn, -⟩
  · exact absurd hl hne
  · cases h.symm.trans h₁; exact he
  · cases h.symm.trans hn

end Sys2Proof.Machine
end

section
/-! The encoder's loop undoes the decoder's loop over ROMs as built, on alphabet texts without overflow: each group's
characters are recovered from its word (42_decoder.md R92). -/

namespace Sys2Proof.Machine

theorem someGroupOverflows_eq_false_iff {text : List Byte} :
    someGroupOverflows text = false ↔ ∀ g < text.length / 5, exactValue text g < 2 ^ 32 := by
  simp [someGroupOverflows]

/-- The characters of an alphabet group's exact value are the group. -/
theorem charsOfValue_exactOf {c0 c1 c2 c3 c4 : Byte} (h0 : mapped c0 = true) (h1 : mapped c1 = true)
    (h2 : mapped c2 = true) (h3 : mapped c3 = true) (h4 : mapped c4 = true) :
    charsOfValue (exactOf (digitOfChar c0) (digitOfChar c1) (digitOfChar c2) (digitOfChar c3) (digitOfChar c4)) =
      [c0, c1, c2, c3, c4] := by
  obtain ⟨e0, e1, e2, e3, e4⟩ := digits_exactOf (digitOfChar_lt c0) (digitOfChar_lt c1) (digitOfChar_lt c2)
    (digitOfChar_lt c3) (digitOfChar_lt c4)
  rw [charsOfValue, e0, e1, e2, e3, e4, charOfDigit_digitOfChar h0, charOfDigit_digitOfChar h1,
    charOfDigit_digitOfChar h2, charOfDigit_digitOfChar h3, charOfDigit_digitOfChar h4]

/-- The bytes of a number below 2^32 are written as its characters. -/
theorem encodeGroups_built_splitWord {n : Nat} (hn : n < 2 ^ 32) {bs cs : List Byte} (h : encodeGroups [] bs = .ok cs) :
    encodeGroups [] (splitWord (BitVec.ofNat 32 n) ++ bs) = .ok (charsOfValue n ++ cs) := by
  simp only [splitWord, List.cons_append, List.nil_append]
  rw [encodeGroups_built_cons, groupWord_wordByte, BitVec.toNat_ofNat, Nat.mod_eq_of_lt hn, h]
  rfl

/-- Encoding what was decoded gives the text back. -/
theorem encodeGroups_built_decodeGroups : ∀ {text bytes : List Byte} {o o' : Bool}, text.length % 5 = 0 →
    (∀ c ∈ text, mapped c = true) → someGroupOverflows text = false → decodeGroups [] o text = .ok (bytes, o') →
    encodeGroups [] bytes = .ok text
  | c0 :: c1 :: c2 :: c3 :: c4 :: rest, bytes, o, o', hl, hmapped, hfits, h => by
    rw [someGroupOverflows_cons, Bool.or_eq_false_iff, decide_eq_false_iff_not, Nat.not_le] at hfits
    obtain ⟨hgroup, hrest⟩ := hfits
    simp only [List.forall_mem_cons] at hmapped
    obtain ⟨h0, h1, h2, h3, h4, hmapped⟩ := hmapped
    obtain ⟨bs, hbs, -⟩ :=
      decodeGroups_built (o || decide (2 ^ 32 ≤ exactValue (c0 :: c1 :: c2 :: c3 :: c4 :: rest) 0)) rest
    rw [decodeGroups_built_cons, hbs] at h
    cases h
    have henc := encodeGroups_built_decodeGroups (by simp only [List.length_cons] at hl; omega) hmapped hrest hbs
    rw [encodeGroups_built_splitWord hgroup henc, ← exactOf_eq_exactValue, charsOfValue_exactOf h0 h1 h2 h3 h4]
    rfl
  | [], _, _, _, _, _, _, h => by cases h; rfl
  | [_], _, _, _, hl, _, _, _ | [_, _], _, _, _, hl, _, _, _ | [_, _, _], _, _, _, hl, _, _, _
  | [_, _, _, _], _, _, _, hl, _, _, _ => by simp at hl

end Sys2Proof.Machine
end

section
/-! The statements about the decoder (42_decoder.md), settled. -/

namespace Sys2Proof.Machine

/-- Settles O21: the unit's answer over ROMs as built, field by field. -/
theorem decoderUnitGivesTheExactValueCut : Obligations.DecoderUnitGivesTheExactValueCut := by
  rintro s c ⟨-, hinv⟩
  refine ⟨_, by rw [hinv, decodeGroup_built_splitChars], BitVec.toNat_ofNat _ _, decide_eq_true_iff, fun k hk => ?_⟩
  exact groupVmask_getLsbD_of_lt (fun j => mapped (charAt c j)) hk

/-- Settles O22: an overflow is an exact value above that of the digits of 2^32 - 1, and exact values are ordered as
their digit strings. -/
theorem groupOverflowIsLexicographic : Obligations.GroupOverflowIsLexicographic := by
  rintro s c ⟨-, hinv⟩
  refine ⟨_, by rw [hinv, decodeGroup_built_splitChars], ?_⟩
  have hmax : 2 ^ 32 = exactOf 82 23 54 12 0 + 1 := rfl
  rw [decide_eq_true_iff, hmax, Nat.succ_le_iff, exactValue_splitChars]
  exact exactOf_lt_exactOf_iff (digitOfChar_lt _) (digitOfChar_lt _) (digitOfChar_lt _) (digitOfChar_lt _)
    (by decide) (by decide) (by decide) (by decide)

/-- Settles O23: DEC offers the output of the decoder's loop. -/
theorem decTranslatesEveryCharacterGroup : Obligations.DecTranslatesEveryCharacterGroup := by
  intro p s hrom hl hpol
  obtain ⟨out, hout, hlen, hget⟩ := decodeGroups_built false p
  rw [Bool.false_or] at hout
  refine ⟨out, ?_, hlen, hget⟩
  rw [← hlen]
  exact exec_dec_of_groups hrom hl hpol hout

/-- Settles O24: the check stops at the character, and its report is the answer. -/
theorem strictDecReportsTheFirstUnmappedCharacter : Obligations.StrictDecReportsTheFirstUnmappedCharacter := by
  rintro p s i c ⟨-, hinv⟩ hpol hl hi hc hbefore
  have hoffender : offendingCharacter s.cfg.decodePolicy s.invRom p = .ok (some (i, c)) := by
    rw [hpol, hinv]
    exact offendingCharacter_built_first hi hc hbefore
  exact exec_of_codec (decOp_of_offender hl hoffender)

/-- Settles O26: `LENIENT` accepts every text, and the character 0 has the digit of an unmapped one. -/
theorem lenientDecTakesUnmappedForZero : Obligations.LenientDecTakesUnmappedForZero := by
  intro p s hrom hpol
  constructor
  · intro hl
    obtain ⟨out, hout, -⟩ := decodeGroups_built false p
    exact ⟨_, exec_dec_of_groups hrom hl (.inl hpol) hout, rfl⟩
  · obtain ⟨-, hinv⟩ := hrom
    have hsame : decOp s.cfg.decodePolicy s.invRom (p.map fun c => if mapped c then c else 0x30#8) =
        decOp s.cfg.decodePolicy s.invRom p := by
      rw [hinv, decOp_built_accepted (.inl hpol), decOp_built_accepted (.inl hpol), List.length_map,
        decodeGroups_built_map digitOfChar_zero_of_unmapped]
    obtain ⟨r, hr, hexec⟩ := exec_completes (.dec p) s
    rw [hexec]
    exact (exec_of_codec (i := .dec _) (hsame.trans hr)).symm

/-- Settles O27: the policy does not occur in DEC's answer to an accepted text, and both policies accept this one. -/
theorem policiesAgreeOnAlphabetTexts : Obligations.PoliciesAgreeOnAlphabetTexts := by
  rintro p s t ⟨-, hs⟩ ⟨-, ht⟩ hmapped
  have hsame : decOp t.cfg.decodePolicy t.invRom p = decOp s.cfg.decodePolicy s.invRom p := by
    rw [hs, ht, decOp_built_accepted (.inr hmapped), decOp_built_accepted (.inr hmapped)]
  obtain ⟨r, hr, -⟩ := exec_completes (.dec p) s
  rw [offeredBy_exec hr]
  exact (offeredBy_exec (i := .dec p) (hsame.trans hr)).symm

/-- Settles O52: the encoder writes mapped codes only, so either policy takes them, and the decoder's loop undoes the
encoder's loop. -/
theorem decodingAnEncodingGivesTheBytesBack : Obligations.DecodingAnEncodingGivesTheBytesBack := by
  intro p s hrom hl
  obtain ⟨text, henc, hlen, -⟩ := encodeGroups_built p
  have htext : text.length % 5 = 0 := by rw [hlen, Nat.mul_mod_left]
  have halpha : s.alphaRom = [] := hrom.1
  refine ⟨text, offeredBy_exec (encOp_of_groups hl (by rwa [halpha])), ?_⟩
  exact offeredBy_exec_dec_of_groups hrom htext (.inr (encodeGroups_built_mapped henc))
    (decodeGroups_built_encodeGroups false hl henc)

/-- Settles O53: no group overflows, so the encoder's loop undoes the decoder's loop. -/
theorem encodingADecodedTextGivesTheTextBack : Obligations.EncodingADecodedTextGivesTheTextBack := by
  intro text s hrom hl hmapped hvalues
  have hfits : someGroupOverflows text = false := someGroupOverflows_eq_false_iff.mpr hvalues
  obtain ⟨bytes, hdec, hlen, -⟩ := decodeGroups_built false text
  rw [hfits, Bool.false_or] at hdec
  have hbytes : bytes.length % 4 = 0 := by rw [hlen, Nat.mul_mod_left]
  have halpha : s.alphaRom = [] := hrom.1
  have henc := encodeGroups_built_decodeGroups hl hmapped hfits hdec
  exact ⟨bytes, offeredBy_exec_dec_of_groups hrom hl (.inr hmapped) hdec,
    offeredBy_exec (encOp_of_groups hbytes (by rwa [halpha]))⟩

/-- Settles O54: "00000" and "0000 " have the exact value 0, and "%nSc1" has 2^32. -/
theorem decIsNotInjective : Obligations.DecIsNotInjective := by
  intro s hrom
  have hzero : ∀ {x : Byte}, digitOfChar x = 0 →
      decodeGroups [] false [0x30, 0x30, 0x30, 0x30, x] = .ok ([0, 0, 0, 0], false) := by
    intro x hx
    rw [decodeGroups_built_zeros, hx]
    rfl
  have hoverflow : decodeGroups [] false [0x25, 0x6E, 0x53, 0x63, 0x31] = .ok ([0, 0, 0, 0], true) := by decide
  refine ⟨?_, ?_, fun hpol => ?_⟩
  · exact offeredBy_exec_dec_of_groups hrom rfl (.inr (by decide)) (hzero (by decide))
  · exact offeredBy_exec_dec_of_groups hrom rfl (.inr (by decide)) hoverflow
  · exact offeredBy_exec_dec_of_groups hrom rfl (.inl hpol) (hzero (by decide))

end Sys2Proof.Machine
end

section
/-! The errors of a response (60_exceptions.md R94 to R100): the length check of DEC, what the character check reports,
and the status that each operation answers with. -/

namespace Sys2Proof.Machine

/-! ### The status of each form of response -/

@[simp] theorem respondOk_status (out : List Byte) (ovf : Bool) : (respondOk out ovf).status = 0b00#2 := rfl
@[simp] theorem raiseError_invalidLength_status (len : Nat) (div : BitVec 3) :
    (raiseError (.invalidLength len div)).status = 0b01#2 := rfl
@[simp] theorem raiseError_invalidCharacter_status (index : Nat) (code : Byte) :
    (raiseError (.invalidCharacter index code)).status = 0b10#2 := rfl
@[simp] theorem raiseError_illegalOp_status (op : Op) : (raiseError (.illegalOp op)).status = 0b11#2 := rfl

/-! ### The two checks of DEC -/

/-- The length is checked before the characters, whatever the policy (R86). -/
theorem decOp_wrong_length (policy : DecodePolicy) (rom : Memory) {p : List Byte} (hl : p.length % 5 ≠ 0) :
    decOp policy rom p = .ok (raiseError (.invalidLength p.length 5#3)) :=
  if_pos hl

/-- The check reports a character exactly under `STRICT`, and then the first unmapped one (R87, R97). -/
theorem offendingCharacter_built_eq_some_iff {policy : DecodePolicy} {p : List Byte} {i : Nat} {c : Byte} :
    offendingCharacter policy [] p = .ok (some (i, c)) ↔
      policy = .strict ∧ p[i]? = some c ∧ mapped c = false ∧ ∀ j < i, ∀ d, p[j]? = some d → mapped d = true := by
  constructor
  · intro h
    cases policy with
    | lenient => cases h
    | strict =>
      rcases firstUnmapped_built p 0 with ⟨hnone, -⟩ | ⟨k, e, hsome, hk, he, hbefore⟩
      · cases hnone.symm.trans h
      · cases hsome.symm.trans h
        rw [Nat.zero_add]
        refine ⟨rfl, hk, he, fun j hj d hd => ?_⟩
        obtain ⟨d₁, hd₁, hmapped⟩ := hbefore j hj
        cases hd.symm.trans hd₁
        exact hmapped
  · rintro ⟨rfl, hi, hc, hbefore⟩
    exact offendingCharacter_built_first hi hc hbefore

/-- Under `STRICT` the check reports nothing only in a text of alphabet characters (R87). -/
theorem forall_mapped_of_offendingCharacter_none {p : List Byte} (h : offendingCharacter .strict [] p = .ok none) :
    ∀ c ∈ p, mapped c = true := by
  rcases firstUnmapped_built p 0 with ⟨-, hall⟩ | ⟨j, c, hsome, -⟩
  · exact hall
  · cases hsome.symm.trans h

/-! ### The status of each operation's answer -/

/-- The four values of `op` (R55). -/
theorem op_cases : ∀ op : Op, op = 0b00#2 ∨ op = 0b01#2 ∨ op = 0b10#2 ∨ op = 0b11#2 := by decide

/-- ENC answers INVALID_LENGTH or OK, whatever `ALPHA_ROM` holds (R77, R96). -/
theorem encOp_status {rom : Memory} {p : List Byte} {r : Response} (h : encOp rom p = .ok r) :
    r.status = if p.length % 4 ≠ 0 then 0b01#2 else 0b00#2 := by
  rcases encOp_cases rom p with ⟨hl, he⟩ | ⟨hl, out, -, he⟩
  · cases he.symm.trans h
    rw [if_pos hl, raiseError_invalidLength_status]
  · cases he.symm.trans h
    rw [if_neg (not_not_intro hl), respondOk_status]

/-- DEC answers INVALID_LENGTH before INVALID_CHARACTER, and otherwise OK (R85, R100). -/
theorem decOp_built_status {policy : DecodePolicy} {p : List Byte} {r : Response} (h : decOp policy [] p = .ok r) :
    r.status = if p.length % 5 ≠ 0 then 0b01#2
      else if policy = .strict ∧ ∃ c ∈ p, mapped c = false then 0b10#2 else 0b00#2 := by
  rcases decOp_cases policy [] p with ⟨hl, he⟩ | ⟨hl, i, c, hbad, he⟩ | ⟨hl, hnone, x, -, he⟩
  · cases he.symm.trans h
    rw [if_pos hl, raiseError_invalidLength_status]
  · cases he.symm.trans h
    obtain ⟨hpol, hi, hc, -⟩ := offendingCharacter_built_eq_some_iff.mp hbad
    rw [if_neg (not_not_intro hl), if_pos ⟨hpol, c, List.mem_of_getElem? hi, hc⟩, raiseError_invalidCharacter_status]
  · cases he.symm.trans h
    have haccepted : ¬ (policy = .strict ∧ ∃ c ∈ p, mapped c = false) := by
      rintro ⟨rfl, c, hmem, hc⟩
      simp [forall_mapped_of_offendingCharacter_none hnone c hmem] at hc
    rw [if_neg (not_not_intro hl), if_neg haccepted, respondOk_status]

end Sys2Proof.Machine
end

section
/-! The statements about the errors (60_exceptions.md), settled. -/

namespace Sys2Proof.Machine

/-- Settles O25: of all responses of the codec only the report of DEC's character check has this status, and that check
reports the first unmapped code. -/
theorem invalidCharacterHasNoOtherCause : Obligations.InvalidCharacterHasNoOtherCause := by
  rintro i s t r ⟨halpha, hinv⟩ hexec hread hstatus
  obtain ⟨r₁, hr, rfl⟩ := exec_next_eq_setIf_done hexec
  cases readResponse_eq_ok.mp hread
  rw [halpha, hinv] at hr
  cases i with
  | enc p =>
    rw [encOp_status hr] at hstatus
    split at hstatus <;> simp at hstatus
  | dec p =>
    rcases decOp_cases s.cfg.decodePolicy [] p with ⟨-, he⟩ | ⟨hl, index, code, hbad, he⟩ | ⟨-, -, x, -, he⟩
    · cases he.symm.trans hr
      simp at hstatus
    · cases he.symm.trans hr
      obtain ⟨hpol, hcause⟩ := offendingCharacter_built_eq_some_iff.mp hbad
      exact ⟨p, rfl, hpol, hl, hcause⟩
    · cases he.symm.trans hr
      simp at hstatus
  | reservedOp00 p => cases hr; simp at hstatus
  | reservedOp11 p => cases hr; simp at hstatus

/-- Settles O31: the step executes what `op` selects, and each operation's answer has the status of its first error. -/
theorem errorsAreReportedByPriority : Obligations.ErrorsAreReportedByPriority := by
  rintro s q ⟨halpha, hinv⟩ hbusy hturns hq
  obtain ⟨hstep, -⟩ := stepExecutesTheDecodedRequest s q _ hbusy (decode_of_wf hq)
  obtain ⟨r, hr, hexec⟩ := exec_completes (instrOfOp q.op q.p) s
  refine ⟨_, r, (hstep hturns).trans hexec, readResponse_eq_ok.mpr rfl, ?_⟩
  obtain ⟨-, hlen⟩ := hq
  rw [halpha, hinv] at hr
  rw [← hlen]
  rcases op_cases q.op with hop | hop | hop | hop <;> rw [hop] at hr ⊢
  · cases hr; rfl
  · simpa using encOp_status hr
  · simpa using decOp_built_status hr
  · cases hr; rfl

/-- Settles O29: both operations check the length before they read a ROM. -/
theorem wrongLengthIsAnsweredWithInvalidLength : Obligations.WrongLengthIsAnsweredWithInvalidLength := fun _ s =>
  ⟨fun hl => exec_of_codec (encOp_wrong_length s.alphaRom hl),
    fun hl => exec_of_codec (decOp_wrong_length s.cfg.decodePolicy s.invRom hl)⟩

/-- Settles O30: the codec's answer to a reserved operation does not look at the payload. -/
theorem reservedOpsAreAnsweredWithIllegalOp : Obligations.ReservedOpsAreAnsweredWithIllegalOp := fun p _ =>
  ⟨exec_of_codec (i := .reservedOp00 p) rfl, exec_of_codec (i := .reservedOp11 p) rfl⟩

end Sys2Proof.Machine
end

section
/-! Turns that are not enabled pass (70_reset_and_hazards.md R118, R119, R120), and the runs in which nothing but such
turns stands between the block and its next transition. -/

namespace Sys2Proof.Machine

/-! ### Turns that are not enabled -/

/-- Outside `IDLE` the request channel hands nothing over (R118). -/
theorem acceptRequest_of_not_idle {s : State} (hif : s.ifState ≠ .idle) : acceptRequest s = .next s := by
  cases h : s.ifState with
  | idle => exact absurd h hif
  | busy q | done r => simp [acceptRequest, accepting, h]

/-- In `BUSY` only `complete` and `reset` are enabled (R21). -/
theorem takeTurn_busy_passes {s : State} {q : Request} {u : Turn} (hif : s.ifState = .busy q)
    (hcomplete : u ≠ .complete) (hreset : u ≠ .reset) : takeTurn u s = .next s := by
  cases u with
  | accept => exact acceptRequest_of_not_idle (by simp [hif])
  | deliver => simp [takeTurn, deliverResponse, readResponse, hif]
  | clk => rfl
  | complete => exact absurd rfl hcomplete
  | reset => exact absurd rfl hreset

/-- In `DONE` only `deliver` and `reset` are enabled (R21). -/
theorem takeTurn_done_passes {s : State} {r : Response} {u : Turn} (hif : s.ifState = .done r)
    (hdeliver : u ≠ .deliver) (hreset : u ≠ .reset) : takeTurn u s = .next s := by
  cases u with
  | accept => exact acceptRequest_of_not_idle (by simp [hif])
  | complete => simp [takeTurn, completeRequest, hif]
  | clk => rfl
  | deliver => exact absurd rfl hdeliver
  | reset => exact absurd rfl hreset

theorem defaultTurn_done_untaken {s : State} {r : Response} (hif : s.ifState = .done r) (ht : s.taking = false) :
    defaultTurn s = .clk := by
  simp [defaultTurn, hif, ht]

/-! ### A response that is not taken -/

/-- While the response is not taken, a step uses up a turn and does nothing else. -/
theorem step_untaken {s : State} {r : Response} (hif : s.ifState = .done r) (htaking : s.taking = false)
    (hdeliver : Turn.deliver ∉ s.turns) (hreset : Turn.reset ∉ s.turns) :
    step s = .next (s.setTurns s.turns.tail) := by
  cases hts : s.turns with
  | nil =>
    rw [step_of_no_turn hts, defaultTurn_done_untaken hif htaking, List.tail_nil, ← hts]
    rfl
  | cons u ts =>
    rw [hts] at hdeliver hreset
    rw [step_of_turn hts]
    exact takeTurn_done_passes (s := s.setTurns ts) hif (List.ne_of_not_mem_cons hdeliver).symm
      (List.ne_of_not_mem_cons hreset).symm

theorem stepN_untaken {r : Response} (n : Nat) : ∀ s : State, s.ifState = .done r → s.taking = false →
    Turn.deliver ∉ s.turns → Turn.reset ∉ s.turns → stepN n s = .next (s.setTurns (s.turns.drop n)) := by
  induction n with
  | zero => intro s _ _ _ _; rfl
  | succ n ih =>
    intro s hif htaking hdeliver hreset
    have hrun := ih (s.setTurns s.turns.tail) hif htaking (fun hmem => hdeliver (List.mem_of_mem_tail hmem))
      (fun hmem => hreset (List.mem_of_mem_tail hmem))
    rw [stepN_succ_of_step (step_untaken hif htaking hdeliver hreset), hrun]
    simp

/-! ### A request that is accepted -/

/-- Completing a request of the instance offers the codec's answer to it (R21, R22). -/
theorem completeRequest_answers {s : State} {q : Request} (hif : s.ifState = .busy q) (hq : q.wf s.cfg) :
    ∃ r, Answers s q r ∧ completeRequest s = .next (s.setIf (.done r)) := by
  have hd := decode_of_wf hq
  obtain ⟨r, hr, hexec⟩ := exec_completes (instrOfOp q.op q.p) s
  exact ⟨r, ⟨_, hd, hr⟩, (completeRequest_busy hif hd).trans hexec⟩

/-- By induction on the turns scheduled: each one completes the request or passes, and with none left the default turn
completes it (R122). -/
theorem stepN_completes_request {q : Request} (us : List Turn) : ∀ s : State, s.turns = us → s.ifState = .busy q →
    q.wf s.cfg → Turn.reset ∉ us →
    ∃ n ≤ us.length + 1, ∃ t r, stepN n s = .next t ∧ t.ifState = .done r ∧ Answers s q r := by
  induction us with
  | nil =>
    intro s hts hif hq _
    obtain ⟨r, hans, hoffer⟩ := completeRequest_answers hif hq
    have hstep : step s = .next (s.setIf (.done r)) := by
      rw [step_of_no_turn hts, defaultTurn_busy hif]
      exact hoffer
    exact ⟨1, le_rfl, _, r, stepN_succ_of_step hstep 0, rfl, hans⟩
  | cons u us ih =>
    intro s hts hif hq hreset
    have hu : u ≠ .reset := (List.ne_of_not_mem_cons hreset).symm
    have hus : Turn.reset ∉ us := List.not_mem_of_not_mem_cons hreset
    by_cases hcomplete : u = .complete
    · subst hcomplete
      obtain ⟨r, hans, hoffer⟩ := completeRequest_answers (s := s.setTurns us) hif hq
      have hstep := (step_of_turn hts).trans hoffer
      exact ⟨1, by omega, _, r, stepN_succ_of_step hstep 0, rfl, hans⟩
    · have hstep := (step_of_turn hts).trans
        (takeTurn_busy_passes (s := s.setTurns us) hif hcomplete hu)
      obtain ⟨n, hn, t, r, hrun, hdone, hans⟩ := ih (s.setTurns us) rfl hif hq hus
      exact ⟨n + 1, Nat.succ_le_succ hn, t, r, (stepN_succ_of_step hstep n).trans hrun, hdone, hans⟩

end Sys2Proof.Machine
end

section
/-! The statements about reset and hazards (70_reset_and_hazards.md), settled. -/

namespace Sys2Proof.Machine

/-- Settles O35: a step leaves both memories and the parameters themselves alone, and so what every address reads as. -/
theorem noStepChangesTheRoms : Obligations.NoStepChangesTheRoms := by
  intro s t h
  obtain ⟨hcfg, halpha, hinv⟩ := step_constants h
  exact ⟨fun _ => by rw [halpha], fun _ => by rw [hinv], hcfg⟩

/-- Settles O41: of the moves of `IFSTATE` only the acceptance takes a request, and that one starts in `IDLE`. -/
theorem requestsWaitWhileBusyOrDone : Obligations.RequestsWaitWhileBusyOrDone := by
  intro s t hif h
  constructor
  · rcases ifstateMovesByTheFourTransitionsOnly s t h with
      ⟨_, hidle, -⟩ | ⟨_, _, -, -, -, ho, -⟩ | ⟨_, -, -, ho, -⟩ | ⟨-, -, ho, -⟩ | ⟨-, ho, -⟩
    · exact absurd hidle hif
    all_goals exact ho
  · intro ts hts
    have hwait : step s = .next (s.setTurns ts) :=
      (step_of_turn hts).trans (acceptRequest_of_not_idle (s := s.setTurns ts) hif)
    cases h.symm.trans hwait
    rfl

/-- Settles O43: however many steps are run, they use up turns and do nothing else. -/
theorem untakenResponseStopsTheBlock : Obligations.UntakenResponseStopsTheBlock :=
  fun s _ n hif htaking hdeliver hreset => ⟨_, stepN_untaken n s hif htaking hdeliver hreset, hif, rfl, rfl⟩

/-- Settles O46: a turn in `BUSY` other than reset completes the request or passes, and only finitely many can pass. -/
theorem acceptedRequestIsCompleted : Obligations.AcceptedRequestIsCompleted :=
  fun s _ hif hq hreset => stepN_completes_request s.turns s rfl hif hq hreset

/-- Settles O44: the scheduled reset is taken in the state without that turn. -/
theorem resetDiscardsWhatIsOutstanding : Obligations.ResetDiscardsWhatIsOutstanding :=
  fun _ _ hts => step_of_turn hts

end Sys2Proof.Machine
end

section
/-! The messages that the spec writes out (95_test_vectors.md P1, P3, P4), settled. -/

namespace Sys2Proof.Machine

/-- Settles O5: each message is the encoding of the operation beside it, and the encoding of an operation decodes to it. -/
theorem specsWrittenMessagesDecode : Obligations.SpecsWrittenMessagesDecode := by
  have decodes := encodedMessageDecodesToItsOperation ⟨.strict, 8⟩
  refine ⟨?enc, ?dec, ?reservedOp00, ?reservedOp11⟩
  case enc => exact decodes (.enc [0x86, 0x4F, 0xD2, 0x6F, 0xB5, 0x59, 0xF7, 0x5B]) (by decide)
  case dec => exact decodes (.dec [0x30, 0x30, 0x30, 0x30, 0x20]) (by decide)
  case reservedOp00 => exact decodes (.reservedOp00 [0x41]) (by decide)
  case reservedOp11 => exact decodes (.reservedOp11 []) (by decide)

end Sys2Proof.Machine
end
